-- ==== Sys2Proof/Word.lean ====
section
/-! DEFINITION. The word types of the kTLSH digest block (00_scope.md rule R13). -/

namespace Sys2Proof

/-- A byte: 8 bits, an unsigned integer 0..255 (rule R13). -/
abbrev Byte := BitVec 8

/-- A nibble: 4 bits, 0..15 (rule R13). -/
abbrev Nibble := BitVec 4

/-- An unsigned integer `0 .. 2^64 - 1` (rule R13). -/
abbrev U64 := BitVec 64

end Sys2Proof
end

