-- ==== Sys2Proof/Syntax.lean ====
section
/-! DEFINITION. The decoded commands of the block (30_encoding.md rule R104), one constructor for each
row of the opcode table. -/

namespace Sys2Proof

/-- A decoded command (rule R104). Operand fields carry raw values: an invalid configuration triple or
a badly formed digest is a command like any other, answered with a status. -/
inductive Instr where
  /-- CFG (R160): the fields `wraw`, `craw`, `bsel` of the operand byte (R105). -/
  | cfg (wraw : BitVec 4) (craw : BitVec 2) (bsel : BitVec 2)
  /-- UPD (R162): absorb the byte `x`. -/
  | upd (x : Byte)
  /-- RST (R161). -/
  | rst
  /-- FIN (R172). -/
  | fin
  /-- PACK (R200). -/
  | pack
  /-- UNPACK (R201) of the packed bytes `B`. -/
  | unpack (B : List Byte)
  /-- HEX (R202) of the bytes `B`. -/
  | hex (B : List Byte)
  /-- HEXT1 (R203) of the bytes `B`. -/
  | hext1 (B : List Byte)
  /-- UNHEX (R204) of the characters `S`. -/
  | unhex (S : List Byte)
  /-- SCORE (R237) of the packed digests `A` and `B`; `includeLength` is bit 0 of FL (R106). -/
  | score (A B : List Byte) (includeLength : Bool)
  /-- PARSE (R205) of the characters `S`. -/
  | parse (S : List Byte)
  /-- LCAP (R154) of the length `v`. -/
  | lcap (v : U64)
  /-- PHASH (R142) of the bytes `X`. -/
  | phash (X : List Byte)
  /-- DBGB (R251) of the bucket index `i`. -/
  | dbgb (i : Byte)
  /-- DBGC (R252). -/
  | dbgc
  /-- DBGN (R253). -/
  | dbgn
  /-- DBGL (R254). -/
  | dbgl
deriving DecidableEq, Repr

end Sys2Proof
end

