-- ==== Sys2Proof/WellFormed.lean ====
section
/-! DEFINITION. Which decoded commands some request stands for: the operand sizes of
30_encoding.md rules R102, R107. -/

namespace Sys2Proof

/-- A variable-length operand fits its 16-bit length field (rule R102). -/
def fitsLength (X : List Byte) : Bool := decide (X.length ≤ 65535)

/-- A HEX or HEXT1 operand whose result still fits a 16-bit length (rule R107 (e)). -/
def fitsHexResult (B : List Byte) : Bool := decide (B.length ≤ 32766)

/-- A command that a request can carry: every variable-length operand fits (rules R102, R107 (e)).
Fixed-width operands are in range by their types. -/
def Instr.wellFormed : Instr → Bool
  | .cfg _ _ _ => true
  | .upd _ => true
  | .rst => true
  | .fin => true
  | .pack => true
  | .unpack B => fitsLength B
  | .hex B => fitsHexResult B
  | .hext1 B => fitsHexResult B
  | .unhex S => fitsLength S
  | .score A B _ => fitsLength A && fitsLength B
  | .parse S => fitsLength S
  | .lcap _ => true
  | .phash X => fitsLength X
  | .dbgb _ => true
  | .dbgc => true
  | .dbgn => true
  | .dbgl => true

end Sys2Proof
end

