-- ==== Sys2Proof/Decode.lean ====
section
/-! DEFINITION. The request formats of 30_encoding.md (rules R100 to R107): the total decoder from the
bytes of a request to a command, the encoder back, and the byte-order helpers both use. -/

namespace Sys2Proof

/-! ### Byte order (rules R66, R102: most significant byte first) -/

/-- The low `8·k` bits of `v` as `k` bytes, most significant first (rule R102). -/
def beBytes : Nat → Nat → List Byte
  | 0, _ => []
  | k + 1, v => BitVec.ofNat 8 (v / 256 ^ k) :: beBytes k v

/-- The number a byte sequence spells, most significant byte first (rule R102). -/
def beNat (bs : List Byte) : Nat :=
  bs.foldl (fun acc v => acc * 256 + v.toNat) 0

/-! ### Decoding -/

/-- Why a request is malformed (rule R107); every cause is answered BadRequest. -/
inductive BadFrame where
  /-- (a) the request has no byte. -/
  | emptyFrame
  /-- (b) the opcode byte is reserved. -/
  | reservedOpcode (op : Byte)
  /-- (c) the request is not as long as its format requires. -/
  | wrongSize
  /-- (d) a reserved bit of SCORE's flags byte is set. -/
  | reservedFlags
  /-- (e) the text HEX or HEXT1 would return does not fit a 16-bit length. -/
  | resultTooLong
deriving DecidableEq, Repr

/-- Format F0: no operand (rule R103). -/
def decodeF0 (i : Instr) : List Byte → Except BadFrame Instr
  | [] => .ok i
  | _ :: _ => .error .wrongSize

/-- Format F1: one operand byte (rule R103). -/
def decodeF1 (f : Byte → Instr) : List Byte → Except BadFrame Instr
  | [a] => .ok (f a)
  | _ => .error .wrongSize

/-- Format FV: a 16-bit length and exactly that many bytes (rules R102, R103). -/
def decodeFV (f : List Byte → Instr) : List Byte → Except BadFrame Instr
  | hi :: lo :: X => if X.length = beNat [hi, lo] then .ok (f X) else .error .wrongSize
  | _ => .error .wrongSize

/-- Format FV for HEX and HEXT1, whose operand is at most 32 766 bytes (rule R107 (e)). -/
def decodeHexFV (f : List Byte → Instr) (rest : List Byte) : Except BadFrame Instr :=
  match decodeFV f rest with
  | .error e => .error e
  | .ok i => if rest.length ≤ 2 + 32766 then .ok i else .error .resultTooLong

/-- Format FQ: one 64-bit operand (rule R103). -/
def decodeFQ (f : U64 → Instr) (rest : List Byte) : Except BadFrame Instr :=
  if rest.length = 8 then .ok (f (BitVec.ofNat 64 (beNat rest))) else .error .wrongSize

/-- Format FS: the flags byte and two length-prefixed operands (rules R103, R106). -/
def decodeFS (f : List Byte → List Byte → Bool → Instr) : List Byte → Except BadFrame Instr
  | fl :: hiA :: loA :: rest =>
    match rest.drop (beNat [hiA, loA]) with
    | hiB :: loB :: B =>
      if B.length = beNat [hiB, loB] then
        if fl.extractLsb' 1 7 = 0#7 then
          .ok (f (rest.take (beNat [hiA, loA])) B (fl.getLsbD 0))
        else .error .reservedFlags
      else .error .wrongSize
    | _ => .error .wrongSize
  | _ => .error .wrongSize

/-- CFG's operand byte `bsel : craw : wraw` (rule R105). -/
def cfgOfByte (a : Byte) : Instr :=
  .cfg (a.extractLsb' 0 4) (a.extractLsb' 4 2) (a.extractLsb' 6 2)

/-- The opcode map (rule R104): the format of the rest of the request by the opcode byte. The four
inspection opcodes are decoded in every build; where `DEBUG_EN` is false the command answers BadRequest
(rule R250). -/
def decodeOp (op : Byte) (rest : List Byte) : Except BadFrame Instr :=
  match op.toNat with
  | 0x01 => decodeF1 cfgOfByte rest
  | 0x02 => decodeF1 .upd rest
  | 0x03 => decodeF0 .rst rest
  | 0x04 => decodeF0 .fin rest
  | 0x05 => decodeF0 .pack rest
  | 0x06 => decodeFV .unpack rest
  | 0x07 => decodeHexFV .hex rest
  | 0x08 => decodeHexFV .hext1 rest
  | 0x09 => decodeFV .unhex rest
  | 0x0A => decodeFS .score rest
  | 0x0B => decodeFV .parse rest
  | 0x0C => decodeFQ .lcap rest
  | 0x0D => decodeFV .phash rest
  | 0x10 => decodeF1 .dbgb rest
  | 0x11 => decodeF0 .dbgc rest
  | 0x12 => decodeF0 .dbgn rest
  | 0x13 => decodeF0 .dbgl rest
  | _ => .error (.reservedOpcode op)

/-- The decoder (rule R107): total on any byte sequence. -/
def decode : List Byte → Except BadFrame Instr
  | [] => .error .emptyFrame
  | op :: rest => decodeOp op rest

/-! ### Encoding -/

/-- A variable-length field `LEN(X) ++ X` (rule R102). -/
def lenPrefixed (X : List Byte) : List Byte := beBytes 2 X.length ++ X

/-- CFG's operand byte from its fields (rule R105). -/
def cfgByte (wraw : BitVec 4) (craw bsel : BitVec 2) : Byte := bsel ++ craw ++ wraw

/-- SCORE's flags byte: bit 0 is `include_length`, bits 7:1 are 0 (rule R106). -/
def scoreFlags (includeLength : Bool) : Byte := if includeLength then 0x01#8 else 0x00#8

/-- The request that carries a command (rules R103, R104). -/
def encode : Instr → List Byte
  | .cfg wraw craw bsel => [0x01#8, cfgByte wraw craw bsel]
  | .upd x => [0x02#8, x]
  | .rst => [0x03#8]
  | .fin => [0x04#8]
  | .pack => [0x05#8]
  | .unpack B => 0x06#8 :: lenPrefixed B
  | .hex B => 0x07#8 :: lenPrefixed B
  | .hext1 B => 0x08#8 :: lenPrefixed B
  | .unhex S => 0x09#8 :: lenPrefixed S
  | .score A B l => 0x0A#8 :: scoreFlags l :: (lenPrefixed A ++ lenPrefixed B)
  | .parse S => 0x0B#8 :: lenPrefixed S
  | .lcap v => 0x0C#8 :: beBytes 8 v.toNat
  | .phash X => 0x0D#8 :: lenPrefixed X
  | .dbgb i => [0x10#8, i]
  | .dbgc => [0x11#8]
  | .dbgn => [0x12#8]
  | .dbgl => [0x13#8]

/-! ### Requests written as one number -/

/-- Byte `k` of a request written as a number whose lowest byte is `q[0]`. -/
def wordByte (w k : Nat) : Byte := BitVec.ofNat 8 (w >>> (8 * k))

/-- How many bytes the format of the opcode asks for (rule R103, column "total"), the length fields
being read from `w` itself; 1 for a reserved opcode. -/
def frameLength (w : Nat) : Nat :=
  match (wordByte w 0).toNat with
  | 0x01 | 0x02 | 0x10 => 2
  | 0x06 | 0x07 | 0x08 | 0x09 | 0x0B | 0x0D => 3 + beNat [wordByte w 1, wordByte w 2]
  | 0x0A =>
    let lenA := beNat [wordByte w 2, wordByte w 3]
    6 + lenA + beNat [wordByte w (4 + lenA), wordByte w (5 + lenA)]
  | 0x0C => 9
  | _ => 1

/-- The request whose first bits are the low `nbits` bits of `w`, every later byte its format asks for
being 0. -/
def tableFrame (nbits w : Nat) : List Byte :=
  let v := w % 2 ^ nbits
  (List.range (max ((nbits + 7) / 8) (frameLength v))).map (wordByte v)

/-- What the decoder reads from a request written as a number; `none` where it refuses. -/
def decodeTableWord (nbits w : Nat) : Option Instr :=
  match decode (tableFrame nbits w) with
  | .ok i => some i
  | .error _ => none

end Sys2Proof
end

