-- ==== Sys2Proof/Machine/Flags.lean ====
section
/-! DEFINITION. The outcome of a command. The block has no flags that persist (10_state.md rule R37);
what stands in their place is the status byte of the response and the framing of results
(30_encoding.md rules R101 to R103). -/

namespace Sys2Proof.Machine

/-- The status of a response (rule R101, 60_exceptions.md rule R260). -/
inductive Status where
  | ok
  | invalidParameter
  | badFormat
  | mismatched
  | badRequest
  | undefinedUse
deriving DecidableEq, Repr

/-- The status byte `ST` (rule R101). -/
def statusCode : Status → Byte
  | .ok => 0x00#8
  | .invalidParameter => 0x01#8
  | .badFormat => 0x02#8
  | .mismatched => 0x03#8
  | .badRequest => 0x04#8
  | .undefinedUse => 0x05#8

/-- A 64-bit result: 8 bytes, most significant first (rule R102). -/
def u64Result (v : U64) : List Byte := beBytes 8 v.toNat

/-- The score as an i32: 4 bytes, most significant first, two's complement (rule R102). -/
def i32Result (v : BitVec 32) : List Byte := beBytes 4 v.toNat

end Sys2Proof.Machine
end

