-- ==== Sys2Proof/Config.lean ====
section
/-! DEFINITION. What a build of the block fixes and what the spec leaves open (00_scope.md rule R11,
92_eei_decisions.md "Open parameters, collected"). Every constant here is opaque: no proof can see its
value, so a theorem about it holds for every value. -/

namespace Sys2Proof.Config

/-- The raw contents of the threshold ROM, OPEN (rules R11, R150; 92_eei_decisions.md D21). Nothing is
assumed of it; `Machine.topval` keeps it where it meets the constraints of rule R151. -/
opaque topvalRaw : Nat → U64

/-- `DEBUG_EN`, OPEN (rule R250; 92_eei_decisions.md D26): are the four inspection reads built in? -/
opaque debugEn : Bool

/-- `HEX_LOWER_OK`, OPEN (rule R122; 92_eei_decisions.md D17): do `a`..`f` decode as hex digits? -/
opaque hexLowerOk : Bool

/-- Free value: `lag[0..6]` after FIN (rules R30, R182: unspecified in SPENT). -/
opaque freeLag : Nat → Vector Byte 7

/-- Free value: `checksum[0..2]` after FIN (rules R30, R182). -/
opaque freeChecksum : Nat → Vector Byte 3

/-- Free value: `bucket[0..255]` after FIN (rules R30, R182). -/
opaque freeBucket : Nat → Vector U64 256

/-- Free value: `count` after FIN (rules R30, R182). -/
opaque freeCount : Nat → U64

end Sys2Proof.Config
end

