-- ==== Sys2Proof/Machine/State.lean ====
section
/-! DEFINITION. The state of one instance of the block (10_state.md rule R20), the reasons a step can
stop, and the state after power-on reset (rules R41, R290). -/

namespace Sys2Proof.Machine

/-- The sequencing state `mode` (rule R30). -/
inductive Mode where
  /-- No valid configuration has been loaded since power-on. -/
  | unconf
  /-- A valid configuration is loaded and the digester is absorbing. -/
  | active
  /-- FIN has run since the last RST or CFG. -/
  | spent
deriving DecidableEq, Repr

/-- The configuration register `cfg` (rule R21): window length, bucket count, checksum length. -/
structure Cfg where
  w : Nat
  b : Nat
  c : Nat
deriving DecidableEq, Repr

/-- The working registers of the accumulator (rules R22 to R25). `lag` is most recent first. -/
structure Digester where
  lag : Vector Byte 7
  checksum : Vector Byte 3
  bucket : Vector U64 256
  count : U64
deriving DecidableEq, Repr

/-- A digest value (rule R34). The record carries its own shape. Derived equality is the equality of
rule R39. -/
structure DigestValue where
  checksum : List Byte
  lvalue : Byte
  q1 : Nibble
  q2 : Nibble
  body : List Byte
deriving DecidableEq, Repr

/-- The build parameters of this instance (rule R11): `DEBUG_EN` and `HEX_LOWER_OK`. No command writes
them. -/
structure Build where
  debugEn : Bool
  hexLowerOk : Bool
deriving DecidableEq, Repr

/-- One instance of the block (rule R20), the build parameters, and the command port. -/
structure State where
  /-- `cfg` (R21). -/
  cfg : Cfg
  /-- `mode` (R30). -/
  mode : Mode
  /-- `lag`, `checksum`, `bucket`, `count` (R22 to R25). -/
  dig : Digester
  /-- `DV` (R34). -/
  dv : DigestValue
  /-- `dv_valid` (R35). -/
  dvValid : Bool
  /-- The model's own: build parameters (R11). -/
  build : Build
  /-- The model's own: how many times the unspecified registers of SPENT have been drawn (R182). -/
  freeDraws : Nat
  /-- The model's own: the requests the host sends, in order; the head is on the port (R100, R304). -/
  inbox : List (List Byte)
  /-- The model's own: the responses given so far, oldest first (R101, R303). -/
  outbox : List (List Byte)
deriving DecidableEq, Repr

/-- Why a step stops. The type has no constructor: every request, well formed or not, in every mode, is
answered with one response and the block goes on (rules R107, R266, R270, R303), so no step of this
machine faults. Safe: nothing is hidden behind a fault. -/
inductive Fault : Type
deriving DecidableEq, Repr

/-- Why a command has no meaning. -/
inductive Refusal where
  /-- Raised only by an arm of `exec` for a command not modelled yet, by its mnemonic. Safe: nothing can
  be proved of a run that reaches it. No arm raises it now. -/
  | notModelled (mnemonic : String)
deriving DecidableEq, Repr

/-- The machine right after power-on reset (rules R41, R290): `mode` is UNCONF and `dv_valid` is false.
DESIGN CHOICE, unsafe: the spec gives no value for `cfg` (log 4), the working registers (log 5) and
`DV` (log 6), and the model names zeros and empty sequences; no command can read them (rule R293). The
build parameters are the opaque constants of Config (logs 10, 11). -/
def State.reset : State where
  cfg := { w := 0, b := 0, c := 0 }
  mode := .unconf
  dig :=
    { lag := Vector.replicate 7 0#8
      checksum := Vector.replicate 3 0#8
      bucket := Vector.replicate 256 0#64
      count := 0#64 }
  dv := { checksum := [], lvalue := 0#8, q1 := 0#4, q2 := 0#4, body := [] }
  dvValid := false
  build := { debugEn := Config.debugEn, hexLowerOk := Config.hexLowerOk }
  freeDraws := 0
  inbox := []
  outbox := []

end Sys2Proof.Machine
end

