-- ==== Sys2Proof/Machine/Operands.lean ====
section
/-! DEFINITION. The operand forms and data formats the commands share: nibbles (00_scope.md rule R14),
the configuration triple (30_encoding.md rule R105), the packed digest (rules R110 to R113) and hex text
(rules R120 to R124). -/

namespace Sys2Proof.Machine

/-! ### Nibbles -/

/-- `v[7:4]` (rule R13). -/
def highNibble (v : Byte) : Nibble := v.extractLsb' 4 4

/-- `v[3:0]` (rule R13). -/
def lowNibble (v : Byte) : Nibble := v.extractLsb' 0 4

/-- The byte with high nibble `h` and low nibble `l`. -/
def byteOfNibbles (h l : Nibble) : Byte := h ++ l

/-- The byte with its two nibbles exchanged (rule R14). -/
def swap (v : Byte) : Byte := byteOfNibbles (lowNibble v) (highNibble v)

/-! ### The configuration triple -/

/-- The bucket count a selector names: 48, 128, 256, none for 3 (rule R105). -/
def bucketCount (bsel : BitVec 2) : Option Nat :=
  match bsel.toNat with
  | 0 => some 48
  | 1 => some 128
  | 2 => some 256
  | _ => none

/-- The triple the fields of CFG's operand spell, none for each of the four causes of
InvalidParameter (42_digester.md rule R160). -/
def cfgTriple (wraw : BitVec 4) (craw bsel : BitVec 2) : Option Cfg :=
  if wraw.toNat < 4 ∨ 8 < wraw.toNat then none
  else if craw.toNat ≠ 1 ∧ craw.toNat ≠ 3 then none
  else
    match bucketCount bsel with
    | none => none
    | some b =>
      if b = 48 ∧ craw.toNat = 3 then none
      else some { w := wraw.toNat, b := b, c := craw.toNat }

/-! ### The packed digest -/

/-- The packed form of a digest value (rules R110, R200): swapped checksum bytes, swapped `lvalue`, the
ratio byte, the body reversed. -/
def packBytes (D : DigestValue) : List Byte :=
  D.checksum.map swap ++ [swap D.lvalue] ++ [byteOfNibbles D.q1 D.q2] ++ D.body.reverse

/-- The shape `(b, c)` of a packed digest of length `L`, none for a length that is no packed length
(rule R111, with the lengths of 90_conflicts.md C1). -/
def packedShape (L : Nat) : Option (Nat × Nat) :=
  match L with
  | 15 => some (48, 1)
  | 35 => some (128, 1)
  | 37 => some (128, 3)
  | 67 => some (256, 1)
  | 69 => some (256, 3)
  | _ => none

/-- `unpack(B)` (43_digest_codec.md rule R201); none where it raises BadFormat. -/
def unpackBytes (B : List Byte) : Option DigestValue :=
  match packedShape B.length with
  | none => none
  | some (_, c) =>
    some
      { checksum := (B.take c).map swap
        lvalue := swap (B.getD c 0#8)
        q1 := highNibble (B.getD (c + 1) 0#8)
        q2 := lowNibble (B.getD (c + 1) 0#8)
        body := (B.drop (c + 2)).reverse }

/-! ### Hex text -/

/-- The upper-case ASCII hex digit of a nibble (rule R120). -/
def hexDigit (n : Nibble) : Byte :=
  if n.toNat < 10 then BitVec.ofNat 8 (0x30 + n.toNat) else BitVec.ofNat 8 (0x41 + (n.toNat - 10))

/-- `hexenc` (rule R120): two characters a byte, high nibble first. -/
def hexEnc (B : List Byte) : List Byte :=
  B.flatMap fun v => [hexDigit (highNibble v), hexDigit (lowNibble v)]

/-- The version tag, the ASCII characters `T1` (rule R121). -/
def tagT1 : List Byte := [0x54#8, 0x31#8]

/-- `hexval` (rule R122): the nibble a character stands for; lower-case letters only where the build
parameter `HEX_LOWER_OK` is true. -/
def hexVal (lowerOk : Bool) (ch : Byte) : Option Nibble :=
  if 0x30 ≤ ch.toNat ∧ ch.toNat ≤ 0x39 then some (BitVec.ofNat 4 (ch.toNat - 0x30))
  else if 0x41 ≤ ch.toNat ∧ ch.toNat ≤ 0x46 then some (BitVec.ofNat 4 (ch.toNat - 0x41 + 10))
  else if lowerOk = true ∧ 0x61 ≤ ch.toNat ∧ ch.toNat ≤ 0x66 then
    some (BitVec.ofNat 4 (ch.toNat - 0x61 + 10))
  else none

/-- `hexdec` (43_digest_codec.md rule R204): bytes from pairs of characters, first the high nibble;
none for an odd number of characters or a non-hex character. -/
def hexDec (lowerOk : Bool) : List Byte → Option (List Byte)
  | [] => some []
  | [_] => none
  | c1 :: c2 :: S =>
    match hexVal lowerOk c1, hexVal lowerOk c2, hexDec lowerOk S with
    | some h, some l, some B => some (byteOfNibbles h l :: B)
    | _, _, _ => none

/-- The characters PARSE decodes: those after a leading `T1`, or all of them (43_digest_codec.md rule
R205). -/
def stripTag : List Byte → List Byte
  | c1 :: c2 :: S => if c1 = 0x54#8 ∧ c2 = 0x31#8 then S else c1 :: c2 :: S
  | S => S

/-- The digest value a digest hex string spells (rule R205); none where PARSE raises BadFormat. -/
def parseDigest (lowerOk : Bool) (S : List Byte) : Option DigestValue :=
  match hexDec lowerOk (stripTag S) with
  | none => none
  | some B => unpackBytes B

end Sys2Proof.Machine
end

