-- ==== Sys2Proof/Machine/Ops.lean ====
section
/-! DEFINITION. The operations every command is made of: answering a request, raising a status (the one
way an "exception" is taken, 60_exceptions.md rule R266), and emptying the digester (10_state.md rule
R41). -/

namespace Sys2Proof.Machine

/-- Emit one response frame (30_encoding.md rules R100, R101). -/
def State.answer (s : State) (frame : List Byte) : State := { s with outbox := s.outbox ++ [frame] }

/-- Answer OK with the result bytes of the command (rules R101, R103). -/
def State.respond (s : State) (result : List Byte) : State := s.answer (statusCode .ok :: result)

/-- Taking an exception (60_exceptions.md rule R266): the response is the single status byte and no
other state changes. Nothing is saved, no mode changes, and the next command is taken as usual
(rule R270). -/
def State.raise (s : State) (k : Status) : State := s.answer [statusCode k]

/-- The end of a command that started in `s`: its new state and result, or the status it raises. A
command that raises leaves the state it started in (rules R266, R184). -/
def complete (s : State) (r : Except Status (State × List Byte)) :
    Host.Outcome State Fault Refusal :=
  .next
    (match r with
     | .ok (t, result) => t.respond result
     | .error k => s.raise k)

/-- The empty digester state (rule R41, second and third column): every working register 0. -/
def emptyDigester : Digester where
  lag := Vector.replicate 7 0#8
  checksum := Vector.replicate 3 0#8
  bucket := Vector.replicate 256 0#64
  count := 0#64

/-- The unspecified digester registers of SPENT (rules R30, R182): the `k`-th draw of free values. -/
def freeDigester (k : Nat) : Digester where
  lag := Config.freeLag k
  checksum := Config.freeChecksum k
  bucket := Config.freeBucket k
  count := Config.freeCount k

end Sys2Proof.Machine
end

