-- ==== Sys2Proof/Machine/Codec.lean ====
section
/-! DEFINITION. Unit U-D, the digest packer and hex codec (43_digest_codec.md): the commands PACK, UNPACK,
HEX, HEXT1, UNHEX and PARSE. -/

namespace Sys2Proof.Machine

/-- Load a digest value into `DV` (rules R34, R35), or raise BadFormat where there is none (rule R262).
The shared end of UNPACK and PARSE. -/
def loadDigest (s : State) (D : Option DigestValue) : Except Status (State × List Byte) :=
  match D with
  | none => .error .badFormat
  | some D => .ok ({ s with dv := D, dvValid := true }, [])

/-- PACK (rule R200): the packed bytes of `DV`; UndefinedUse where no digest value has been written
since power-on. Legal in every mode. -/
def execPack (s : State) : Host.Outcome State Fault Refusal :=
  complete s
    (if s.dvValid then .ok (s, lenPrefixed (packBytes s.dv)) else .error .undefinedUse)

/-- UNPACK (rule R201): load `DV` from packed bytes; BadFormat for any length that is no packed length.
Legal in every mode. -/
def execUnpack (B : List Byte) (s : State) : Host.Outcome State Fault Refusal :=
  complete s (loadDigest s (unpackBytes B))

/-- HEX (rule R202): upper-case hex text. No state is read or written; legal in every mode. -/
def execHex (B : List Byte) (s : State) : Host.Outcome State Fault Refusal :=
  complete s (.ok (s, lenPrefixed (hexEnc B)))

/-- HEXT1 (rule R203): the same with the version tag. -/
def execHext1 (B : List Byte) (s : State) : Host.Outcome State Fault Refusal :=
  complete s (.ok (s, lenPrefixed (tagT1 ++ hexEnc B)))

/-- UNHEX (rule R204): hex text to bytes; BadFormat for an odd length or a non-hex character, `T`
among them. -/
def execUnhex (S : List Byte) (s : State) : Host.Outcome State Fault Refusal :=
  complete s
    (match hexDec s.build.hexLowerOk S with
     | none => .error .badFormat
     | some B => .ok (s, lenPrefixed B))

/-- PARSE (rule R205): load `DV` from a digest hex string with or without its `T1` prefix; BadFormat
for every other text. Legal in every mode. -/
def execParse (S : List Byte) (s : State) : Host.Outcome State Fault Refusal :=
  complete s (loadDigest s (parseDigest s.build.hexLowerOk S))

end Sys2Proof.Machine
end

