-- ==== Sys2Proof/Machine/Pearson.lean ====
section
/-! DEFINITION. Unit U-A, the Pearson mixer (40_pearson.md): the permutation ROM, the mixing functions,
and the command PHASH. -/

namespace Sys2Proof.Machine

/-! ### The permutation ROM (rules R61, R141; log 8) -/

/-- Rows 0 to 3 of the table of rule R141. -/
def pearsonRows0 : List Byte :=
  [1, 87, 49, 12, 176, 178, 102, 166, 121, 193, 6, 84, 249, 230, 44, 163,
   14, 197, 213, 181, 161, 85, 218, 80, 64, 239, 24, 226, 236, 142, 38, 200,
   110, 177, 104, 103, 141, 253, 255, 50, 77, 101, 81, 18, 45, 96, 31, 222,
   25, 107, 190, 70, 86, 237, 240, 34, 72, 242, 20, 214, 244, 227, 149, 235]

/-- Rows 4 to 7 of the table of rule R141. -/
def pearsonRows4 : List Byte :=
  [97, 234, 57, 22, 60, 250, 82, 175, 208, 5, 127, 199, 111, 62, 135, 248,
   174, 169, 211, 58, 66, 154, 106, 195, 245, 171, 17, 187, 182, 179, 0, 243,
   132, 56, 148, 75, 128, 133, 158, 100, 130, 126, 91, 13, 153, 246, 216, 219,
   119, 68, 223, 78, 83, 88, 201, 99, 122, 11, 92, 32, 136, 114, 52, 10]

/-- Rows 8 to 11 of the table of rule R141. -/
def pearsonRows8 : List Byte :=
  [138, 30, 48, 183, 156, 35, 61, 26, 143, 74, 251, 94, 129, 162, 63, 152,
   170, 7, 115, 167, 241, 206, 3, 150, 55, 59, 151, 220, 90, 53, 23, 131,
   125, 173, 15, 238, 79, 95, 89, 16, 105, 137, 225, 224, 217, 160, 37, 123,
   118, 73, 2, 157, 46, 116, 9, 145, 134, 228, 207, 212, 202, 215, 69, 229]

/-- Rows 12 to 15 of the table of rule R141. -/
def pearsonRows12 : List Byte :=
  [27, 188, 67, 124, 168, 252, 42, 4, 29, 108, 21, 247, 19, 205, 39, 203,
   233, 40, 186, 147, 198, 192, 155, 33, 164, 191, 98, 204, 165, 180, 117, 76,
   140, 36, 210, 172, 41, 54, 159, 8, 185, 232, 113, 196, 231, 47, 146, 120,
   51, 65, 28, 144, 254, 221, 93, 189, 194, 139, 112, 43, 71, 109, 184, 209]

/-- The permutation ROM `P` (rules R61, R141). -/
def pearsonTable : List Byte := pearsonRows0 ++ pearsonRows4 ++ pearsonRows8 ++ pearsonRows12

/-- `P[x]`. Every byte is in range (rule R140). -/
def pearson (x : Byte) : Byte := pearsonTable.getD x.toNat 0#8

/-! ### The mixing functions (rule R140) -/

/-- `hash1(x) = P[x]`. -/
def hash1 (x : Byte) : Byte := pearson x

/-- `hash2(a, b) = P[P[a] ^ b]`. -/
def hash2 (a b : Byte) : Byte := pearson (pearson a ^^^ b)

/-- `hash3(a, b, c) = P[P[P[a] ^ b] ^ c]`. -/
def hash3 (a b c : Byte) : Byte := pearson (pearson (pearson a ^^^ b) ^^^ c)

/-- `hashseq(X)`: `h_0 = 0`, `h_{i+1} = P[h_i ^ X[i]]`. -/
def hashSeq (X : List Byte) : Byte := X.foldl (fun h x => pearson (h ^^^ x)) 0#8

/-- The digester's four-step mixing `P[P[P[P[p] ^ l0] ^ a] ^ b]` (rules R140, R167). -/
def mix4 (p l0 a b : Byte) : Byte :=
  pearson (pearson (pearson (pearson p ^^^ l0) ^^^ a) ^^^ b)

/-! ### PHASH -/

/-- PHASH (rule R142): the Pearson hash of `X`. No state is read or written; legal in every mode. -/
def execPhash (X : List Byte) (s : State) : Host.Outcome State Fault Refusal :=
  complete s (.ok (s, [hashSeq X]))

end Sys2Proof.Machine
end

