-- ==== Sys2Proof/Machine/Quantizer.lean ====
section
/-! DEFINITION. Unit U-B, the length quantizer (41_length_quantizer.md): the threshold ROM, the length
code, and the command LCAP. -/

namespace Sys2Proof.Machine

/-! ### The threshold ROM (rules R62, R150, R151; log 9) -/

/-- The four constraints of rule R151 on a threshold table. -/
def topvalOk (t : Nat → U64) : Bool :=
  decide (t 0 = 1#64) && decide (t 255 = BitVec.allOnes 64)
    && (List.range 255).all (fun i => decide (t i < t (i + 1)))
    && decide (t 5 < 12#64 ∧ 12#64 ≤ t 6)
    && decide (t 6 < 19#64 ∧ 19#64 ≤ t 7)
    && decide (t 52 < 65536#64 ∧ 65536#64 ≤ t 53)

/-- Some table that meets rule R151. It stands in only where `Config.topvalRaw` does not meet the
constraints; its entries mean nothing else (log 9). -/
def topvalStandIn (i : Nat) : U64 :=
  if i ≤ 5 then BitVec.ofNat 64 (i + 1)
  else if i = 6 then 12#64
  else if i ≤ 52 then BitVec.ofNat 64 (i + 12)
  else if i ≤ 254 then BitVec.ofNat 64 (i + 65483)
  else BitVec.allOnes 64

/-- `TOPVAL[i]` (rules R62, R150): any table that meets rule R151. `Config.topvalRaw` is opaque, so what
is proved of `topval` is proved of every such table (DESIGN CHOICE, safe: log 9). -/
def topval (i : Nat) : U64 :=
  if topvalOk Config.topvalRaw then Config.topvalRaw i else topvalStandIn i

/-! ### The length code -/

/-- The least index of `i, i+1, …, i+fuel` whose threshold is at least `len`, the last where none is. -/
def firstReaching (t : Nat → U64) (len : U64) : Nat → Nat → Nat
  | 0, i => i
  | fuel + 1, i => if len ≤ t i then i else firstReaching t len fuel (i + 1)

/-- `l_capturing(len)` (rule R152): the smallest `i` in 0..255 with `len <= TOPVAL[i]`. -/
def lCapturing (len : U64) : Byte := BitVec.ofNat 8 (firstReaching topval len 255 0)

/-! ### LCAP -/

/-- LCAP (rule R154): the length code of `v`. No state is read or written; legal in every mode. -/
def execLcap (v : U64) (s : State) : Host.Outcome State Fault Refusal :=
  complete s (.ok (s, [lCapturing v]))

end Sys2Proof.Machine
end

