-- ==== Sys2Proof/Machine/Digester.lean ====
section
/-! DEFINITION. Units U-C1, U-C2, U-C3, the streaming digester (42_digester.md): the commands CFG, RST,
UPD and FIN. -/

namespace Sys2Proof.Machine

/-! ### CFG and RST -/

/-- The state with the digester emptied and absorbing (rule R41, second column). -/
def State.emptied (s : State) : State := { s with dig := emptyDigester, mode := .active }

/-- CFG (rule R160): load a valid triple and empty the digester; InvalidParameter for any other triple,
with the old configuration and the old stream left in place. Legal in every mode; `DV` is kept. -/
def execCfg (wraw : BitVec 4) (craw bsel : BitVec 2) (s : State) :
    Host.Outcome State Fault Refusal :=
  complete s
    (match cfgTriple wraw craw bsel with
     | none => .error .invalidParameter
     | some t => .ok ({ s with cfg := t }.emptied, []))

/-- RST (rule R161): empty the digester and keep the configuration; UndefinedUse in UNCONF. -/
def execRst (s : State) : Host.Outcome State Fault Refusal :=
  complete s (if s.mode = .unconf then .error .undefinedUse else .ok (s.emptied, []))

/-! ### UPD: the pair table -/

/-- One row of the pair table (rule R168): the prime `p` and the lag positions `a < b` of the bytes
`l_a`, `l_b` mixed in after `l0`. -/
structure PairRow where
  p : Byte
  a : Nat
  b : Nat
deriving DecidableEq, Repr

/-- The pair table (rule R168), rows 1 to 21 in order. -/
def pairTable : List PairRow :=
  [⟨2, 1, 2⟩, ⟨3, 1, 3⟩, ⟨5, 2, 3⟩,
   ⟨7, 2, 4⟩, ⟨11, 1, 4⟩, ⟨13, 3, 4⟩,
   ⟨17, 1, 5⟩, ⟨19, 2, 5⟩, ⟨23, 3, 5⟩, ⟨29, 4, 5⟩,
   ⟨31, 1, 6⟩, ⟨37, 2, 6⟩, ⟨41, 3, 6⟩, ⟨43, 4, 6⟩, ⟨47, 5, 6⟩,
   ⟨53, 1, 7⟩, ⟨59, 2, 7⟩, ⟨61, 3, 7⟩, ⟨67, 4, 7⟩, ⟨71, 5, 7⟩, ⟨73, 6, 7⟩]

/-- `N(w)`, how many rows a window uses (rule R167, with 90_conflicts.md C7); 0 for a `w` that no valid
configuration has. -/
def pairCount (w : Nat) : Nat :=
  match w with
  | 4 => 3
  | 5 => 6
  | 6 => 10
  | 7 => 15
  | 8 => 21
  | _ => 0

/-- `l_j` for the current byte `x`: `l_0 = x`, `l_j = lag[j-1]` (rules R22, R164). -/
def lagByte (x : Byte) (lag : Vector Byte 7) (j : Nat) : Byte := (x :: lag.toList).getD j 0#8

/-- `idx_n` (rule R167): the bucket one row of the pair table selects. -/
def bucketIndex (x : Byte) (lag : Vector Byte 7) (r : PairRow) : Byte :=
  mix4 r.p x (lagByte x lag r.a) (lagByte x lag r.b)

/-- The buckets a running byte increments, in table order, repetitions included (rule R167). -/
def bucketIndices (w : Nat) (x : Byte) (lag : Vector Byte 7) : List Byte :=
  ((pairTable.take (pairCount w)).map (bucketIndex x lag))

/-- One increment (rule R167); none where the counter would pass `2^64 - 1` (rule R170). -/
def increment (bucket : Vector U64 256) (i : Byte) : Option (Vector U64 256) :=
  if bucket[i.toNat] = BitVec.allOnes 64 then none
  else some (bucket.set i.toNat (bucket[i.toNat] + 1#64))

/-- The increments of one byte, one after another: equal indices each count (rules R69, R167, R296);
none where any counter would pass its limit. -/
def incrementAll (bucket : Vector U64 256) : List Byte → Option (Vector U64 256)
  | [] => some bucket
  | i :: is =>
    match increment bucket i with
    | none => none
    | some bucket' => incrementAll bucket' is

/-! ### UPD: checksum, shift, absorb -/

/-- The new `checksum[0]` (rule R165); the mixing constant is the literal 1. -/
def nextChecksum0 (l0 l1 old : Byte) : Byte :=
  pearson (pearson (pearson (1#8 ^^^ l0) ^^^ l1) ^^^ old)

/-- The new `checksum[k]` for `k = 1, 2` (rule R166) from the new `checksum[k-1]` (D12; log 12). -/
def nextChecksumK (prev l0 l1 old : Byte) : Byte :=
  pearson (pearson (pearson (pearson prev ^^^ l0) ^^^ l1) ^^^ old)

/-- The checksum after a running byte (rules R165, R166); entries 1 and 2 change only where `c = 3`. -/
def nextChecksum (c : Nat) (l0 l1 : Byte) (cs : Vector Byte 3) : Vector Byte 3 :=
  let k0 := nextChecksum0 l0 l1 cs[0]
  if c = 3 then
    let k1 := nextChecksumK k0 l0 l1 cs[1]
    let k2 := nextChecksumK k1 l0 l1 cs[2]
    #v[k0, k1, k2]
  else #v[k0, cs[1], cs[2]]

/-- The shift of all 7 lag registers (rules R162 step 5, R169). -/
def shiftLag (x : Byte) (lag : Vector Byte 7) : Vector Byte 7 :=
  #v[x, lag[0], lag[1], lag[2], lag[3], lag[4], lag[5]]

/-- Steps 3 to 6 of UPD (rule R162): a warm-up byte only shifts and counts (rule R163), a running byte
also updates checksum and histogram (rule R164); none where a counter would pass its limit. -/
def absorb (g : Cfg) (x : Byte) (d : Digester) : Option Digester :=
  if g.w ≤ d.count.toNat + 1 then
    match incrementAll d.bucket (bucketIndices g.w x d.lag) with
    | none => none
    | some bucket' =>
      some
        { lag := shiftLag x d.lag
          checksum := nextChecksum g.c x d.lag[0] d.checksum
          bucket := bucket'
          count := d.count + 1#64 }
  else some { d with lag := shiftLag x d.lag, count := d.count + 1#64 }

/-- The largest stream length, `2^63 - 1` (00_scope.md rule R12). -/
def countLimit : Nat := 2 ^ 63 - 1

/-- UPD (rule R162): absorb one byte. UndefinedUse outside ACTIVE, at the stream limit and where a
counter would pass `2^64 - 1`, each with nothing written (rules R170, R266). -/
def execUpd (x : Byte) (s : State) : Host.Outcome State Fault Refusal :=
  complete s
    (if s.mode ≠ .active then .error .undefinedUse
     else if s.dig.count.toNat = countLimit then .error .undefinedUse
     else
       match absorb s.cfg x s.dig with
       | none => .error .undefinedUse
       | some d => .ok ({ s with dig := d }, []))

/-! ### FIN: quartiles, codes, ratios -/

/-- `bucket[0 .. b-1]` as numbers (rule R173). -/
def counters (b : Nat) (bucket : Vector U64 256) : List Nat :=
  (bucket.toList.take b).map BitVec.toNat

/-- `sort_asc` (rule R13); any method serves (rule R173). -/
def sortAsc (X : List Nat) : List Nat := X.insertionSort (· ≤ ·)

/-- Quartile boundary `q_i = S[i·k - 1]`, `k = b/4`, of the sorted counters (rule R173). -/
def quartile (b : Nat) (S : List Nat) (i : Nat) : Nat := S.getD (i * (b / 4) - 1) 0

/-- The 2-bit quartile code of a counter (rule R176): strict comparisons, tested from the top. -/
def quartileCode (q1 q2 q3 v : Nat) : BitVec 2 :=
  if v > q3 then 3#2 else if v > q2 then 2#2 else if v > q1 then 1#2 else 0#2

/-- `body[i]`: four codes, the lowest-numbered bucket in the lowest bits (rules R112, R177). -/
def bodyByte (code : Nat → BitVec 2) (i : Nat) : Byte :=
  code (4 * i + 3) ++ code (4 * i + 2) ++ code (4 * i + 1) ++ code (4 * i)

/-- The low nibble of `q·100 / q3`, the product exact, 0 where `q3 = 0` (rules R178, R179; log 13). -/
def ratioNibble (q q3 : Nat) : Nibble :=
  if q3 = 0 then 0#4 else BitVec.ofNat 4 (q * 100 / q3)

/-- The digest value of a stream (rule R172, steps 2 to 6). -/
def finalize (g : Cfg) (d : Digester) : DigestValue :=
  let cs := counters g.b d.bucket
  let S := sortAsc cs
  let q1 := quartile g.b S 1
  let q2 := quartile g.b S 2
  let q3 := quartile g.b S 3
  { checksum := d.checksum.toList.take g.c
    lvalue := lCapturing d.count
    q1 := ratioNibble q1 q3
    q2 := ratioNibble q2 q3
    body := (List.range (g.b / 4)).map
      (bodyByte fun n => quartileCode q1 q2 q3 (cs.getD n 0)) }

/-- FIN (rule R172): the digest value into `DV`, `mode` to SPENT, the digester registers unspecified
(rule R182: free values, log 7). UndefinedUse outside ACTIVE. -/
def execFin (s : State) : Host.Outcome State Fault Refusal :=
  complete s
    (if s.mode ≠ .active then .error .undefinedUse
     else
       .ok
         ({ s with
            dv := finalize s.cfg s.dig
            dvValid := true
            mode := .spent
            dig := freeDigester s.freeDraws
            freeDraws := s.freeDraws + 1 }, []))

end Sys2Proof.Machine
end

