-- ==== Sys2Proof/Machine/Inspect.lean ====
section
/-! DEFINITION. The inspection reads (45_inspection.md): the commands DBGB, DBGC, DBGN and DBGL. -/

namespace Sys2Proof.Machine

/-- An inspection read (rule R250): BadRequest where `DEBUG_EN` is false (the opcode is reserved in that
build, and BadRequest comes first, rule R267), UndefinedUse outside ACTIVE, else the result; no state
changes. -/
def inspect (s : State) (result : List Byte) : Except Status (State × List Byte) :=
  if s.build.debugEn = false then .error .badRequest
  else if s.mode ≠ .active then .error .undefinedUse
  else .ok (s, result)

/-- DBGB (rule R251): one bucket counter, any of the 256 whatever `b` is. -/
def execDbgb (i : Byte) (s : State) : Host.Outcome State Fault Refusal :=
  complete s (inspect s (u64Result s.dig.bucket[i.toNat]))

/-- DBGC (rule R252): the raw checksum bytes `checksum[0 .. c-1]`. -/
def execDbgc (s : State) : Host.Outcome State Fault Refusal :=
  complete s (inspect s (lenPrefixed (s.dig.checksum.toList.take s.cfg.c)))

/-- DBGN (rule R253): the byte count. -/
def execDbgn (s : State) : Host.Outcome State Fault Refusal :=
  complete s (inspect s (u64Result s.dig.count))

/-- DBGL (rule R254): the lag window `lag[0 .. w-2]`, most recent byte first. -/
def execDbgl (s : State) : Host.Outcome State Fault Refusal :=
  complete s (inspect s (lenPrefixed (s.dig.lag.toList.take (s.cfg.w - 1))))

end Sys2Proof.Machine
end

