-- ==== Sys2Proof/Machine/Scorer.lean ====
section
/-! DEFINITION. Unit U-E, the digest scorer (44_scorer.md): the distance and the command SCORE. -/

namespace Sys2Proof.Machine

/-- `|x - y|` on numbers (rule R13). -/
def absDiff (x y : Nat) : Nat := if x ≤ y then y - x else x - y

/-- `mod_dist(x, y, R) = min(|x-y|, R - |x-y|)` (rule R230). -/
def modDist (x y R : Nat) : Nat := min (absDiff x y) (R - absDiff x y)

/-- `dd(s, t)` (rule R231): `|s - t|` with 3 replaced by 6. -/
def digitDiff (s t : BitVec 2) : Nat :=
  if absDiff s.toNat t.toNat = 3 then 6 else absDiff s.toNat t.toNat

/-- Digit `k` of a byte, bits `2k+1 : 2k` (rule R232). -/
def digit (x : Byte) (k : Nat) : BitVec 2 := x.extractLsb' (2 * k) 2

/-- `BPD[x][y]`, the bit-pair difference table (rules R63, R232), computed. -/
def bitPairDiff (x y : Byte) : Nat :=
  digitDiff (digit x 0) (digit y 0) + digitDiff (digit x 1) (digit y 1)
    + digitDiff (digit x 2) (digit y 2) + digitDiff (digit x 3) (digit y 3)

/-- `score_checksum` (rule R233). -/
def scoreChecksum (a b : DigestValue) : Nat := if a.checksum = b.checksum then 0 else 1

/-- `score_length` (rule R234). -/
def scoreLength (a b : DigestValue) : Nat :=
  let d := modDist a.lvalue.toNat b.lvalue.toNat 256
  if d ≤ 1 then d else 12 * d

/-- `score_q` (rule R235). -/
def scoreQ (qa qb : Nibble) : Nat :=
  let d := modDist qa.toNat qb.toNat 16
  if d ≤ 1 then d else 12 * (d - 1)

/-- `score_body` (rule R236): the sum of the table entries of the byte pairs. -/
def scoreBody (a b : DigestValue) : Nat := (List.zipWith bitPairDiff a.body b.body).sum

/-- `score(a, b, include_length)` (rule R238): the sum of the parts. -/
def score (a b : DigestValue) (includeLength : Bool) : Nat :=
  scoreChecksum a b + (if includeLength then scoreLength a b else 0)
    + scoreQ a.q1 b.q1 + scoreQ a.q2 b.q2 + scoreBody a b

/-- SCORE's own checks in their order, then the score (rules R237, R267): BadFormat for `A`, BadFormat
for `B`, Mismatched. -/
def scorePacked (A B : List Byte) (includeLength : Bool) : Except Status Nat :=
  match unpackBytes A with
  | none => .error .badFormat
  | some a =>
    match unpackBytes B with
    | none => .error .badFormat
    | some b =>
      if a.checksum.length ≠ b.checksum.length ∨ a.body.length ≠ b.body.length then
        .error .mismatched
      else .ok (score a b includeLength)

/-- SCORE (rule R237): the distance of two packed digests as an i32. No state is read or written, `DV`
included; legal in every mode. -/
def execScore (A B : List Byte) (includeLength : Bool) (s : State) :
    Host.Outcome State Fault Refusal :=
  complete s
    (match scorePacked A B includeLength with
     | .error k => .error k
     | .ok n => .ok (s, i32Result (BitVec.ofNat 32 n)))

end Sys2Proof.Machine
end

