-- ==== Sys2Proof/Machine/Dispatch.lean ====
section
/-! DEFINITION. One arm for each command of the opcode table (30_encoding.md rule R104). -/

namespace Sys2Proof.Machine

def exec (i : Instr) (s : State) : Host.Outcome State Fault Refusal :=
  match i with
  | .cfg wraw craw bsel => Sys2Proof.Machine.execCfg wraw craw bsel s
  | .upd x => Sys2Proof.Machine.execUpd x s
  | .rst => Sys2Proof.Machine.execRst s
  | .fin => Sys2Proof.Machine.execFin s
  | .pack => Sys2Proof.Machine.execPack s
  | .unpack B => Sys2Proof.Machine.execUnpack B s
  | .hex B => Sys2Proof.Machine.execHex B s
  | .hext1 B => Sys2Proof.Machine.execHext1 B s
  | .unhex S => Sys2Proof.Machine.execUnhex S s
  | .score A B includeLength => Sys2Proof.Machine.execScore A B includeLength s
  | .parse S => Sys2Proof.Machine.execParse S s
  | .lcap v => Sys2Proof.Machine.execLcap v s
  | .phash X => Sys2Proof.Machine.execPhash X s
  | .dbgb j => Sys2Proof.Machine.execDbgb j s
  | .dbgc => Sys2Proof.Machine.execDbgc s
  | .dbgn => Sys2Proof.Machine.execDbgn s
  | .dbgl => Sys2Proof.Machine.execDbgl s

end Sys2Proof.Machine
end

