-- ==== Sys2Proof/Machine/Port.lean ====
section
/-! DEFINITION. The command port (30_encoding.md rule R100, 70_reset_and_hazards.md rules R303, R304):
taking one request from the host. -/

namespace Sys2Proof.Machine

/-- The request on the port and the state after it has been taken: a payload is gone when its command
ends (20_memory.md rule R65). None where the host has sent nothing. -/
def State.takeRequest (s : State) : Option (List Byte × State) :=
  match s.inbox with
  | [] => none
  | q :: rest => some (q, { s with inbox := rest })

/-- The state in which the host's next request is `q`, before those already waiting. -/
def State.withRequest (s : State) (q : List Byte) : State := { s with inbox := q :: s.inbox }

end Sys2Proof.Machine
end

