-- ==== Sys2Proof/Machine/Step.lean ====
section
/-! DEFINITION. One step of the machine: one request taken, decoded, performed to its end and answered
(30_encoding.md rule R100). -/

namespace Sys2Proof.Machine

/-- One step (rules R100, R107, R303). With no request pending nothing happens (rule R268; log 2). A
malformed request is answered BadRequest with no other change; a well-formed one is performed. -/
def step (s : State) : Host.Outcome State Fault Refusal :=
  match s.takeRequest with
  | none => .next s
  | some (q, t) =>
    match decode q with
    | .error _ => .next (t.raise .badRequest)
    | .ok i => exec i t

/-- The state with the instruction `w` of the opcode table as the host's next request. -/
def State.withFetchWord (s : State) (nbits w : Nat) : State := s.withRequest (tableFrame nbits w)

end Sys2Proof.Machine
end

