-- ==== Sys2Proof/Machine/Pseudo.lean ====
section
/-! DEFINITION. The assembler's side of the spec: algorithm names (30_encoding.md rule R130), the text of
one command (rule R131) and the pseudo-commands (rule R132). The block itself parses no names; the step
uses nothing of this file. -/

namespace Sys2Proof.Machine

/-! ### Algorithm names (rule R130) -/

/-- A number below 1000 in ASCII decimal digits. -/
def decimalText (n : Nat) : List Byte :=
  let d (k : Nat) : Byte := BitVec.ofNat 8 (0x30 + k % 10)
  if n < 10 then [d n] else if n < 100 then [d (n / 10), d n] else [d (n / 100), d (n / 10), d n]

/-- The ASCII characters `TLSH`. -/
def tlshText : List Byte := [0x54#8, 0x4C#8, 0x53#8, 0x48#8]

/-- `TLSH-b-c`, the name without its window suffix. -/
def shortName (g : Cfg) : List Byte :=
  tlshText ++ [0x2D#8] ++ decimalText g.b ++ [0x2D#8] ++ decimalText g.c

/-- `TLSH-b-c/w`, the full name. -/
def fullName (g : Cfg) : List Byte := shortName g ++ [0x2F#8] ++ decimalText g.w

/-- The 25 valid triples (rules R4, R10, R130). -/
def validTriples : List Cfg :=
  [4, 5, 6, 7, 8].flatMap fun w =>
    [⟨w, 48, 1⟩, ⟨w, 128, 1⟩, ⟨w, 128, 3⟩, ⟨w, 256, 1⟩, ⟨w, 256, 3⟩]

/-- The triple a name spells (rule R130): the suffix defaults to `/5`, the bare name `TLSH` aliases
`TLSH-128-1/5`. -/
def tripleOfName (name : List Byte) : Option Cfg :=
  if name = tlshText then some ⟨5, 128, 1⟩
  else
    validTriples.find? fun g =>
      decide (name = fullName g) || (decide (g.w = 5) && decide (name = shortName g))

/-- The CFG command that loads a triple (rules R105, R130). -/
def cfgCommand (g : Cfg) : Instr :=
  .cfg (BitVec.ofNat 4 g.w) (BitVec.ofNat 2 g.c)
    (if g.b = 48 then 0#2 else if g.b = 128 then 1#2 else if g.b = 256 then 2#2 else 3#2)

/-! ### Pseudo-commands (rule R132) -/

/-- `UPDATE x0 x1 …`: one UPD a byte. -/
def pseudoUpdate (xs : List Byte) : List Instr := xs.map .upd

/-- `CFG "<name>"`; no command where the name is not one of the grammar. -/
def pseudoCfg (name : List Byte) : Option (List Instr) :=
  (tripleOfName name).map fun g => [cfgCommand g]

/-- `NEW "<name>"`, the same as `CFG "<name>"`. -/
def pseudoNew (name : List Byte) : Option (List Instr) := pseudoCfg name

/-- `DIGEST "<name>" <bytes>`: CFG, UPDATE, FIN, PACK. -/
def pseudoDigest (name xs : List Byte) : Option (List Instr) :=
  (pseudoCfg name).map fun cmds => cmds ++ pseudoUpdate xs ++ [.fin, .pack]

/-- `PH1 a`. -/
def pseudoPh1 (a : Byte) : List Instr := [.phash [a]]

/-- `PH2 a b`. -/
def pseudoPh2 (a b : Byte) : List Instr := [.phash [a, b]]

/-- `PH3 a b c`. -/
def pseudoPh3 (a b c : Byte) : List Instr := [.phash [a, b, c]]

/-! ### The text of one command (rule R131) -/

/-- Bytes in hex with a space before each. -/
def asmBytes (B : List Byte) : String :=
  String.join (B.map fun v =>
    String.ofList (' ' :: (hexEnc [v]).map fun ch => Char.ofNat ch.toNat))

/-- ASCII bytes as a string in double quotes. -/
def asmQuoted (S : List Byte) : String :=
  String.ofList ('"' :: (S.map fun ch => Char.ofNat ch.toNat) ++ ['"'])

/-- One command as the spec's programs write it (rule R131). DESIGN CHOICE, safe (log 21): rule R131 has
numbers in hex with `0x`, but 95_test_vectors.md writes `DBGB 221` and `LCAP 0`; here the operands of DBGB
and LCAP and the numbers of CFG and `len=` are decimal, only UPD's byte is hex with `0x`, and a bucket
selector that names no count is `?`. -/
def asmText : Instr → String
  | .cfg wraw craw bsel =>
    "CFG w=" ++ toString wraw.toNat ++ " b="
      ++ (match bucketCount bsel with | some b => toString b | none => "?")
      ++ " c=" ++ toString craw.toNat
  | .upd x => "UPD 0x" ++ String.ofList ((hexEnc [x]).map fun ch => Char.ofNat ch.toNat)
  | .rst => "RST"
  | .fin => "FIN"
  | .pack => "PACK"
  | .unpack B => "UNPACK" ++ asmBytes B
  | .hex B => "HEX" ++ asmBytes B
  | .hext1 B => "HEXT1" ++ asmBytes B
  | .unhex S => "UNHEX " ++ asmQuoted S
  | .score A B l => "SCORE len=" ++ (if l then "1" else "0") ++ asmBytes A ++ " ," ++ asmBytes B
  | .parse S => "PARSE " ++ asmQuoted S
  | .lcap v => "LCAP " ++ toString v.toNat
  | .phash X => "PHASH" ++ asmBytes X
  | .dbgb i => "DBGB " ++ toString i.toNat
  | .dbgc => "DBGC"
  | .dbgn => "DBGN"
  | .dbgl => "DBGL"

end Sys2Proof.Machine
end

