-- ==== Sys2Proof/Safety.lean ====
section
/-! DEFINITION. What a good state and a good run are, in the terms the claims use: the valid
configurations and digest shapes, the invariant of the block, the form of a response, the duties of the
host, and which states no command can tell apart. -/

namespace Sys2Proof.Machine

/-! ### Values in range -/

/-- One of the 25 valid triples (rules R10, R21). -/
abbrev Cfg.Valid (g : Cfg) : Prop :=
  (4 ≤ g.w ∧ g.w ≤ 8) ∧ (g.b = 48 ∨ g.b = 128 ∨ g.b = 256) ∧ (g.c = 1 ∨ g.c = 3)
    ∧ ¬(g.b = 48 ∧ g.c = 3)

/-- The pair of lengths of a digest value is one of the five (rule R34). -/
abbrev DigestValue.Shaped (D : DigestValue) : Prop :=
  (D.checksum.length, D.body.length) ∈ [(1, 12), (1, 32), (3, 32), (1, 64), (3, 64)]

/-- The sum of all 256 counters. -/
def bucketTotal (bucket : Vector U64 256) : Nat := (bucket.toList.map BitVec.toNat).sum

/-- The form of a response (rule R101): status OK and a result, or one error status alone. -/
abbrev ResponseFramed (r : List Byte) : Prop :=
  r.head? = some 0x00#8
    ∨ r ∈ [[0x01#8], [0x02#8], [0x03#8], [0x04#8], [0x05#8]]

/-- How many rows of the pair table in use select bucket `k` for the byte `x` (rules R167, R168), written
out from the rule: `idx = P[P[P[P[p] ^ l0] ^ l_a] ^ l_b]` with `l0 = x`, `l_j = lag[j-1]`. -/
def bucketHits (g : Cfg) (x : Byte) (lag : Vector Byte 7) (k : Nat) : Nat :=
  (pairTable.take (pairCount g.w)).countP fun r =>
    decide
      ((pearson (pearson (pearson (pearson r.p ^^^ x) ^^^ (x :: lag.toList).getD r.a 0#8)
        ^^^ (x :: lag.toList).getD r.b 0#8)).toNat = k)

/-- `lag` after the stream `xs` has been absorbed from the empty digester (rules R22, R169): its last seven
bytes, most recent first, 0 where there are fewer. -/
def streamLag (xs : List Byte) : Vector Byte 7 := Vector.ofFn fun j => xs.reverse.getD j.val 0#8

/-- How often bucket `k` is selected by the stream `xs` from the empty digester (rules R163, R164, R167): the
hits of each byte `xs[n]` that is a running byte, `n + 1 ≥ w`, on the `lag` of the bytes before it. -/
def streamHits (g : Cfg) (xs : List Byte) (k : Nat) : Nat :=
  (((List.range xs.length).filter fun n => decide (g.w ≤ n + 1)).map fun n =>
    bucketHits g (xs.getD n 0#8) (streamLag (xs.take n)) k).sum

/-! ### The invariant of the block -/

/-- What holds of one instance between commands. Nothing is said of the digester registers outside
ACTIVE, where they are unspecified (rules R30, R41), nor of `DV` before it is written (rule R35). -/
structure State.Inv (s : State) : Prop where
  /-- `cfg` holds a valid triple once CFG has been answered OK (R21). -/
  cfg_valid : s.mode ≠ .unconf → s.cfg.Valid
  /-- `DV` has one of the five shapes once written (R34). -/
  dv_shaped : s.dvValid = true → s.dv.Shaped
  /-- The stream is no longer than `2^63 - 1` bytes (R12, R25). -/
  count_bound : s.mode = .active → s.dig.count.toNat ≤ countLimit
  /-- With `c = 1` the upper checksum registers stay 0 (R23). -/
  upper_checksum : s.mode = .active → s.cfg.c = 1 →
    s.dig.checksum[1] = 0#8 ∧ s.dig.checksum[2] = 0#8
  /-- Warm-up bytes leave the checksum 0 (R163, R298). -/
  warmup_checksum : s.mode = .active → s.dig.count.toNat < s.cfg.w →
    s.dig.checksum = Vector.replicate 3 0#8
  /-- The counters sum to `N(w)` increments for each of the `max(0, count - w + 1)` running bytes
  (R164, R167). -/
  histogram_total : s.mode = .active →
    bucketTotal s.dig.bucket = pairCount s.cfg.w * (s.dig.count.toNat + 1 - s.cfg.w)
  /-- Lag entries that no byte has reached yet read as 0 (R254). -/
  lag_unwritten : s.mode = .active → ∀ j : Fin 7, s.dig.count.toNat ≤ j.val → s.dig.lag[j] = 0#8

/-! ### Runs -/

/-- Decoded commands performed one after another (rule R73). -/
def runCommands : List Instr → State → Host.Outcome State Fault Refusal
  | [], s => .next s
  | i :: is, s =>
    match exec i s with
    | .next t => runCommands is t
    | .fault r => .fault r
    | .refused r => .refused r

/-- The host keeps its duties in this state (rule R304, fourth row, as far as the block can check
them): no response so far is UndefinedUse. -/
def State.dutiesKept (s : State) : Bool := decide ([statusCode .undefinedUse] ∉ s.outbox)

/-! ### States no command can tell apart -/

/-- Two states that agree on everything a command can read (rules R30, R38, R41, R293): the digester
registers count only in ACTIVE, `cfg` only once configured, `DV` only once written. -/
structure SameToHost (s t : State) : Prop where
  mode : s.mode = t.mode
  dvValid : s.dvValid = t.dvValid
  build : s.build = t.build
  inbox : s.inbox = t.inbox
  outbox : s.outbox = t.outbox
  cfg : s.mode ≠ .unconf → s.cfg = t.cfg
  dig : s.mode = .active → s.dig = t.dig
  dv : s.dvValid = true → s.dv = t.dv

end Sys2Proof.Machine
end

