-- ==== Sys2Proof/Certificates/Slice0/Obligations.lean ====
section
/-! DEFINITION. The statements for the provers about the kTLSH digest block. Each docstring names the
rules of the spec a statement formalises, or says that it is the model's own. -/

open Sys2Proof Sys2Proof.Machine

/-! ### The machine: reset, step, requests and responses -/

/-- Rules R35, R41, R290, the values the spec gives for power-on: `mode` is UNCONF and `dv_valid` is
false. -/
def Obligations.ResetIsUnconfigured : Prop :=
  State.reset.mode = .unconf ∧ State.reset.dvValid = false

/-- The invariant holds after power-on reset. -/
def Obligations.ResetMeetsInvariant : Prop := State.reset.Inv

/-- The invariant (rules R21, R23, R25, R34, R163, R164, R167, R254) is kept by every step from every
state that meets it. -/
def Obligations.StepKeepsInvariant : Prop :=
  ∀ s t : State, s.Inv → step s = .next t → t.Inv

/-- Rule R100: where the request on the port decodes to a command, the step takes the request off the
port and is the command's execution. -/
def Obligations.StepRunsDecodedCommand : Prop :=
  ∀ (s : State) (q : List Byte) (rest : List (List Byte)) (i : Instr),
    s.inbox = q :: rest → decode q = .ok i → step s = exec i { s with inbox := rest }

/-- Rule R107: a request that is the encoding of no well-formed command is answered BadRequest and
nothing else changes; a request that is one decodes to it. -/
def Obligations.StepAnswersMalformedRequest : Prop :=
  ∀ (s : State) (q : List Byte) (rest : List (List Byte)), s.inbox = q :: rest →
    (∃ i : Instr, i.wellFormed = true ∧ encode i = q ∧ step s = exec i { s with inbox := rest })
      ∨ ((¬ ∃ i : Instr, i.wellFormed = true ∧ encode i = q)
          ∧ step s = .next { s with inbox := rest, outbox := s.outbox ++ [[0x04#8]] })

/-- The model's choice (log 2, after rules R268, R303): with no request pending the step changes
nothing. -/
def Obligations.StepIdlesWithoutRequest : Prop :=
  ∀ s : State, s.inbox = [] → step s = .next s

/-- Rules R100, R101: a step with a request pending takes exactly that request and emits exactly one
response, OK with a result or one error status alone. -/
def Obligations.OneFramedResponsePerRequest : Prop :=
  ∀ (s : State) (q : List Byte) (rest : List (List Byte)), s.inbox = q :: rest →
    ∃ (t : State) (r : List Byte), step s = .next t ∧ t.inbox = rest
      ∧ t.outbox = s.outbox ++ [r] ∧ ResponseFramed r

/-- Rules R184, R266: a command whose response is an error status has changed nothing but the sequence of
responses. -/
def Obligations.RaisingCommandChangesNothing : Prop :=
  ∀ (i : Instr) (s t : State) (r : List Byte), exec i s = .next t → t.outbox = s.outbox ++ [r] →
    r.head? ≠ some 0x00#8 → t = { s with outbox := s.outbox ++ [r] }

/-- Rule R32, the table of the transitions of `mode` for commands. -/
def Obligations.ModeFollowsTransitionTable : Prop :=
  ∀ (i : Instr) (s t : State), exec i s = .next t →
    t.mode =
      match i, s.mode with
      | .cfg w c b, m => if cfgTriple w c b = none then m else .active
      | .rst, .active => .active
      | .rst, .spent => .active
      | .fin, .active => .spent
      | _, m => m

/-- Rules R21, R34, R35: `cfg` is written only by CFG; `DV` and `dv_valid` only by FIN, UNPACK and PARSE;
once true `dv_valid` stays true; no command writes the build parameters. -/
def Obligations.RegistersHaveTheirWriters : Prop :=
  ∀ (i : Instr) (s t : State), exec i s = .next t →
    ((∀ w c b, i ≠ .cfg w c b) → t.cfg = s.cfg)
      ∧ (i ≠ .fin → (∀ B, i ≠ .unpack B) → (∀ S, i ≠ .parse S) → t.dv = s.dv ∧ t.dvValid = s.dvValid)
      ∧ (s.dvValid = true → t.dvValid = true)
      ∧ t.build = s.build

/-- Rules R20, R22 to R25: `lag`, `checksum`, `bucket` and `count` are written only by UPD, RST and CFG;
FIN leaves them unspecified. -/
def Obligations.DigesterHasItsWriters : Prop :=
  ∀ (i : Instr) (s t : State), exec i s = .next t →
    (∀ w c b, i ≠ .cfg w c b) → (∀ x, i ≠ .upd x) → i ≠ .rst → i ≠ .fin → t.dig = s.dig

/-- Rules R30, R38, R293, R303: two states that differ only in registers the spec leaves unspecified there
give the same responses to every request, and go on doing so. -/
def Obligations.UnspecifiedRegistersNeverShow : Prop :=
  ∀ s t s' t' : State, SameToHost s t → step s = .next s' → step t = .next t' → SameToHost s' t'

/-! ### Requests as bytes -/

/-- Decode and encode agree on every well-formed command, every operand included. -/
def Obligations.DecodeOfEncode : Prop :=
  ∀ i : Instr, i.wellFormed = true → decode (encode i) = .ok i

/-- A request the decoder accepts is the one encoding of a well-formed command. -/
def Obligations.EncodeOfDecode : Prop :=
  ∀ (q : List Byte) (i : Instr), decode q = .ok i → i.wellFormed = true ∧ encode i = q

/-- Requests written out from rules R103 to R106 decode to the commands they stand for. -/
def Obligations.SampleRequestsDecode : Prop :=
  decode [0x01#8, 0x55#8] = .ok (.cfg 5#4 1#2 1#2)
    ∧ decode [0x01#8, 0xB8#8] = .ok (.cfg 8#4 3#2 2#2)
    ∧ decode [0x02#8, 0x6F#8] = .ok (.upd 0x6F#8)
    ∧ decode [0x04#8] = .ok .fin
    ∧ decode [0x0D#8, 0x00#8, 0x02#8, 0x48#8, 0x65#8] = .ok (.phash [0x48#8, 0x65#8])
    ∧ decode [0x0C#8, 0#8, 0#8, 0#8, 0#8, 0#8, 0x01#8, 0#8, 0x02#8] = .ok (.lcap 65538#64)
    ∧ decode [0x0A#8, 0x01#8, 0#8, 1#8, 0xAA#8, 0#8, 2#8, 0xBB#8, 0xCC#8]
        = .ok (.score [0xAA#8] [0xBB#8, 0xCC#8] true)
    ∧ decode [0x10#8, 0xDD#8] = .ok (.dbgb 0xDD#8)

/-- Rules R104, R107 (b): every opcode byte outside the map is reserved, whatever follows it. -/
def Obligations.ReservedOpcodesAreRejected : Prop :=
  ∀ (op : Byte) (rest : List Byte),
    op.toNat = 0 ∨ op.toNat = 0x0E ∨ op.toNat = 0x0F ∨ 0x14 ≤ op.toNat →
    decode (op :: rest) = .error (.reservedOpcode op)

/-! ### The digester: CFG, RST, UPD, FIN -/

/-- Rule R160: CFG with one of the 25 valid triples, in any mode, loads it, empties the digester and goes
to ACTIVE; everything else is unchanged. -/
def Obligations.CfgLoadsValidTriple : Prop :=
  ∀ (s : State) (wraw : BitVec 4) (craw bsel : BitVec 2),
    4 ≤ wraw.toNat → wraw.toNat ≤ 8 → (craw = 1#2 ∨ craw = 3#2) → bsel ≠ 3#2 →
    ¬(bsel = 0#2 ∧ craw = 3#2) →
    exec (.cfg wraw craw bsel) s
      = .next
          { s with
            cfg :=
              { w := wraw.toNat
                b := if bsel = 0#2 then 48 else if bsel = 1#2 then 128 else 256
                c := craw.toNat }
            mode := .active
            dig :=
              { lag := Vector.replicate 7 0#8
                checksum := Vector.replicate 3 0#8
                bucket := Vector.replicate 256 0#64
                count := 0#64 }
            outbox := s.outbox ++ [[0x00#8]] }

/-- Rules R160, R261: CFG with any other triple answers InvalidParameter and changes nothing. -/
def Obligations.CfgRejectsInvalidTriple : Prop :=
  ∀ (s : State) (wraw : BitVec 4) (craw bsel : BitVec 2),
    (wraw.toNat < 4 ∨ 8 < wraw.toNat ∨ (craw ≠ 1#2 ∧ craw ≠ 3#2) ∨ bsel = 3#2
      ∨ (bsel = 0#2 ∧ craw = 3#2)) →
    exec (.cfg wraw craw bsel) s = .next { s with outbox := s.outbox ++ [[0x01#8]] }

/-- Rule R161: RST in ACTIVE or SPENT empties the digester, keeps the configuration and `DV`, and goes to
ACTIVE; in UNCONF it answers UndefinedUse and changes nothing; its request is the byte 0x03. -/
def Obligations.RstEmptiesDigester : Prop :=
  encode .rst = [0x03#8] ∧
    ∀ s : State,
      (s.mode ≠ .unconf →
        exec .rst s
          = .next
              { s with
                mode := .active
                dig :=
                  { lag := Vector.replicate 7 0#8
                    checksum := Vector.replicate 3 0#8
                    bucket := Vector.replicate 256 0#64
                    count := 0#64 }
                outbox := s.outbox ++ [[0x00#8]] })
      ∧ (s.mode = .unconf → exec .rst s = .next { s with outbox := s.outbox ++ [[0x05#8]] })

/-- Rules R32, R265: UPD and FIN outside ACTIVE, and PACK without a digest value, answer UndefinedUse and
change nothing. -/
def Obligations.UndefinedUseIsAnswered : Prop :=
  ∀ s : State,
    (s.mode ≠ .active → ∀ x : Byte,
        exec (.upd x) s = .next { s with outbox := s.outbox ++ [[0x05#8]] })
      ∧ (s.mode ≠ .active → exec .fin s = .next { s with outbox := s.outbox ++ [[0x05#8]] })
      ∧ (s.dvValid = false → exec .pack s = .next { s with outbox := s.outbox ++ [[0x05#8]] })

/-- Rule R163: a warm-up byte shifts into `lag` and is counted; neither histogram nor checksum is
updated. -/
def Obligations.UpdWarmupByteOnlyShifts : Prop :=
  ∀ (s : State) (x : Byte), s.mode = .active → s.dig.count.toNat ≠ 2 ^ 63 - 1 →
    s.dig.count.toNat + 1 < s.cfg.w →
    exec (.upd x) s
      = .next
          { s with
            dig :=
              { s.dig with
                lag := #v[x, s.dig.lag[0], s.dig.lag[1], s.dig.lag[2], s.dig.lag[3], s.dig.lag[4],
                  s.dig.lag[5]]
                count := s.dig.count + 1#64 }
            outbox := s.outbox ++ [[0x00#8]] }

/-- Rules R162, R164, R165, R167, R169: a running byte updates the first checksum byte, adds to every
bucket the number of pair-table rows that select it, shifts `lag` and counts; with a 1-byte checksum the
other two checksum registers keep their values; nothing else changes. -/
def Obligations.UpdRunningByteMixes : Prop :=
  ∀ (s : State) (x : Byte), s.mode = .active → s.dig.count.toNat ≠ 2 ^ 63 - 1 →
    s.cfg.w ≤ s.dig.count.toNat + 1 →
    (∀ k (_ : k < 256),
      s.dig.bucket[k].toNat + bucketHits s.cfg x s.dig.lag k ≤ 2 ^ 64 - 1) →
    ∃ (bk : Vector U64 256) (k0 k1 k2 : Byte),
      (∀ k (_ : k < 256),
        bk[k].toNat = s.dig.bucket[k].toNat + bucketHits s.cfg x s.dig.lag k)
      ∧ k0 = pearson (pearson (pearson (1#8 ^^^ x) ^^^ s.dig.lag[0]) ^^^ s.dig.checksum[0])
      ∧ (s.cfg.c ≠ 3 → k1 = s.dig.checksum[1] ∧ k2 = s.dig.checksum[2])
      ∧ exec (.upd x) s
          = .next
              { s with
                dig :=
                  { lag := #v[x, s.dig.lag[0], s.dig.lag[1], s.dig.lag[2], s.dig.lag[3],
                      s.dig.lag[4], s.dig.lag[5]]
                    checksum := #v[k0, k1, k2]
                    bucket := bk
                    count := s.dig.count + 1#64 }
                outbox := s.outbox ++ [[0x00#8]] }

/-- The model's choice (log 12, after 92_eei_decisions.md D12 and rule R166): with a 3-byte checksum the
second and third byte of a running byte's checksum are mixed from the byte before them as already updated
for this byte. -/
def Obligations.UpdThreeByteChecksum : Prop :=
  ∀ (s : State) (x : Byte), s.mode = .active → s.dig.count.toNat ≠ 2 ^ 63 - 1 →
    s.cfg.w ≤ s.dig.count.toNat + 1 → s.cfg.c = 3 →
    (∀ k (_ : k < 256),
      s.dig.bucket[k].toNat + bucketHits s.cfg x s.dig.lag k ≤ 2 ^ 64 - 1) →
    ∃ (t : State) (k0 k1 k2 : Byte),
      exec (.upd x) s = .next t ∧ t.dig.checksum = #v[k0, k1, k2]
      ∧ k0 = pearson (pearson (pearson (1#8 ^^^ x) ^^^ s.dig.lag[0]) ^^^ s.dig.checksum[0])
      ∧ k1 = pearson (pearson (pearson (pearson k0 ^^^ x) ^^^ s.dig.lag[0]) ^^^ s.dig.checksum[1])
      ∧ k2 = pearson (pearson (pearson (pearson k1 ^^^ x) ^^^ s.dig.lag[0]) ^^^ s.dig.checksum[2])

/-- Rule R170: UPD at the end of the supported stream length, or where a counter would pass `2^64 - 1`,
answers UndefinedUse with nothing written. -/
def Obligations.UpdRaisesAtItsLimits : Prop :=
  ∀ (s : State) (x : Byte), s.mode = .active →
    (s.dig.count.toNat = 2 ^ 63 - 1
      ∨ (s.cfg.w ≤ s.dig.count.toNat + 1
          ∧ ∃ k, ∃ _ : k < 256,
              2 ^ 64 ≤ s.dig.bucket[k].toNat + bucketHits s.cfg x s.dig.lag k)) →
    exec (.upd x) s = .next { s with outbox := s.outbox ++ [[0x05#8]] }

/-- Rules R10, R168: for each window the rows in use number 3, 6, 10, 15, 21 and name every pair
`1 ≤ a < b ≤ w - 1` of lag positions exactly once, with the first primes in order; over the whole table the
pairs ascend by `b` and then by `a`, but for rows 4 and 5, which are `(7, 2, 4)` and `(11, 1, 4)`. -/
def Obligations.PairTableNamesEveryPairOnce : Prop :=
  (∀ w, 4 ≤ w → w ≤ 8 →
    (pairTable.take (pairCount w)).length = (w - 1) * (w - 2) / 2
      ∧ (∀ a b, 1 ≤ a → a < b → b ≤ w - 1 →
          (pairTable.take (pairCount w)).countP (fun r => decide (r.a = a ∧ r.b = b)) = 1)
      ∧ (pairTable.take (pairCount w)).map (fun r => r.p.toNat)
          = ((List.range 74).filter Nat.Prime).take (pairCount w))
  ∧ pairTable[3]? = some ⟨7#8, 2, 4⟩ ∧ pairTable[4]? = some ⟨11#8, 1, 4⟩
  ∧ ((pairTable.map fun r => (r.a, r.b)).set 3 (1, 4)).set 4 (2, 4)
      = (List.range 8).flatMap fun b =>
          ((List.range b).filter fun a => decide (1 ≤ a)).map fun a => (a, b)

/-- Rules R172, R173, R176 to R179, R181, R182: FIN in ACTIVE writes the digest value made from the
order statistics of the first `b` counters, whatever way they were sorted, sets `dv_valid`, goes to
SPENT and leaves the digester registers to a draw of free values (log 7); the product `q·100` is exact
(log 13); nothing else changes. -/
def Obligations.FinComputesDigest : Prop :=
  ∀ (s : State) (S : List Nat), s.mode = .active → s.cfg.Valid →
    S.Pairwise (· ≤ ·) → S.Perm ((s.dig.bucket.toList.take s.cfg.b).map BitVec.toNat) →
    let k := s.cfg.b / 4
    let q1 := S.getD (k - 1) 0
    let q2 := S.getD (2 * k - 1) 0
    let q3 := S.getD (3 * k - 1) 0
    let code : Nat → Nat := fun n =>
      let v := (s.dig.bucket.toList.getD n 0#64).toNat
      if v > q3 then 3 else if v > q2 then 2 else if v > q1 then 1 else 0
    exec .fin s
      = .next
          { s with
            dv :=
              { checksum := s.dig.checksum.toList.take s.cfg.c
                lvalue := lCapturing s.dig.count
                q1 := BitVec.ofNat 4 (if q3 = 0 then 0 else q1 * 100 / q3)
                q2 := BitVec.ofNat 4 (if q3 = 0 then 0 else q2 * 100 / q3)
                body := (List.range k).map fun i =>
                  BitVec.ofNat 8 (code (4 * i) + 4 * code (4 * i + 1) + 16 * code (4 * i + 2)
                    + 64 * code (4 * i + 3)) }
            dvValid := true
            mode := .spent
            dig := freeDigester s.freeDraws
            freeDraws := s.freeDraws + 1
            outbox := s.outbox ++ [[0x00#8]] }

/-- Rules R173, R178: the quartile boundaries are in order and both quotients are at most 100, for every
histogram. -/
def Obligations.QuartilesAreOrdered : Prop :=
  ∀ (bucket : Vector U64 256) (b : Nat), b = 48 ∨ b = 128 ∨ b = 256 →
    let S := sortAsc (counters b bucket)
    quartile b S 1 ≤ quartile b S 2 ∧ quartile b S 2 ≤ quartile b S 3
      ∧ quartile b S 1 * 100 / quartile b S 3 ≤ 100 ∧ quartile b S 2 * 100 / quartile b S 3 ≤ 100

/-- Rule R180: a stream shorter than the window gives checksum, ratios and body all zero and the length
code of its length; the empty stream packs to zero bytes. -/
def Obligations.ShortStreamDigest : Prop :=
  ∀ (s : State) (xs : List Byte), s.mode = .active → s.cfg.Valid → s.dig = emptyDigester →
    xs.length < s.cfg.w →
    ∃ t : State, runCommands (pseudoUpdate xs ++ [.fin]) s = .next t
      ∧ t.dvValid = true
      ∧ t.dv =
          { checksum := List.replicate s.cfg.c 0#8
            lvalue := lCapturing (BitVec.ofNat 64 xs.length)
            q1 := 0#4
            q2 := 0#4
            body := List.replicate (s.cfg.b / 4) 0#8 }
      ∧ (xs = [] → packBytes t.dv = List.replicate (s.cfg.c + 2 + s.cfg.b / 4) 0#8)

/-- Rule R183: CFG, a stream and FIN, from any state, and RST, the same stream and FIN, from any ACTIVE or
SPENT state that already holds that triple, both run to their end and leave the same digest value. -/
def Obligations.ResetLaw : Prop :=
  ∀ (s s' : State) (wraw : BitVec 4) (craw bsel : BitVec 2) (xs : List Byte), s'.mode ≠ .unconf →
    cfgTriple wraw craw bsel = some s'.cfg →
    ∃ t t' : State,
      runCommands (.cfg wraw craw bsel :: pseudoUpdate xs ++ [.fin]) s = .next t
      ∧ runCommands (.rst :: pseudoUpdate xs ++ [.fin]) s' = .next t'
      ∧ t.dv = t'.dv ∧ t.dvValid = true ∧ t'.dvValid = true

/-- Rules R162 to R165, R167, R169 over a whole stream: absorbing `xs` byte by byte from the empty digester,
in ACTIVE with a valid configuration and with room for the stream, counts its bytes, leaves its last seven
bytes in `lag` most recent first, adds to each bucket the hits of every running byte, and folds the running
bytes into the checksum; every byte is answered OK and nothing else changes. The end depends on the
sequence of bytes alone, so absorbing `xs` and then `ys` is absorbing `xs ++ ys` (rule R171). -/
def Obligations.StreamClosedForm : Prop :=
  ∀ (s : State) (xs : List Byte), s.mode = .active → s.cfg.Valid → s.dig = emptyDigester →
    xs.length ≤ 2 ^ 63 - 1 → (∀ k, k < 256 → streamHits s.cfg xs k ≤ 2 ^ 64 - 1) →
    ∃ d : Digester,
      runCommands (pseudoUpdate xs) s
        = .next { s with dig := d, outbox := s.outbox ++ List.replicate xs.length [0x00#8] }
      ∧ d.count.toNat = xs.length
      ∧ (∀ j (_ : j < 7), d.lag[j] = xs.reverse.getD j 0#8)
      ∧ (∀ k (_ : k < 256), d.bucket[k].toNat = streamHits s.cfg xs k)
      ∧ d.checksum[0]
          = ((List.range xs.length).filter fun n => decide (s.cfg.w ≤ n + 1)).foldl
              (fun old n =>
                pearson (pearson (pearson (1#8 ^^^ xs.getD n 0#8) ^^^ xs.getD (n - 1) 0#8) ^^^ old))
              0#8
      ∧ (s.cfg.c = 1 → d.checksum[1] = 0#8 ∧ d.checksum[2] = 0#8)

/-- The digest of a stream depends on nothing that came before its CFG (rules R41, R160, R172). -/
def Obligations.DigestForgetsThePast : Prop :=
  ∀ (s1 s2 t1 t2 : State) (wraw : BitVec 4) (craw bsel : BitVec 2) (xs : List Byte),
    cfgTriple wraw craw bsel ≠ none →
    runCommands (.cfg wraw craw bsel :: pseudoUpdate xs) s1 = .next t1 →
    runCommands (.cfg wraw craw bsel :: pseudoUpdate xs) s2 = .next t2 →
    t1.dig = t2.dig ∧ t1.cfg = t2.cfg ∧ finalize t1.cfg t1.dig = finalize t2.cfg t2.dig

/-! ### The digest codec: PACK, UNPACK, HEX, HEXT1, UNHEX, PARSE -/

/-- Rules R110, R200: PACK in any mode answers the length and the packed bytes of `DV` and changes nothing
else. -/
def Obligations.PackReturnsPackedDigest : Prop :=
  ∀ s : State, s.dvValid = true →
    exec .pack s
      = .next
          { s with
            outbox := s.outbox ++
              [0x00#8 ::
                (lenPrefixed
                  (s.dv.checksum.map (fun v => v.rotateLeft 4) ++
                    (s.dv.lvalue.rotateLeft 4 :: (s.dv.q1 ++ s.dv.q2) :: s.dv.body.reverse)))] }

/-- Rules R111, R201: UNPACK of a packed digest of one of the five lengths, in any mode, loads `DV`. -/
def Obligations.UnpackLoadsDigest : Prop :=
  ∀ (s : State) (B : List Byte) (c : Nat),
    (B.length, c) ∈ [(15, 1), (35, 1), (37, 3), (67, 1), (69, 3)] →
    exec (.unpack B) s
      = .next
          { s with
            dv :=
              { checksum := (B.take c).map fun v => v.rotateLeft 4
                lvalue := (B.getD c 0#8).rotateLeft 4
                q1 := (B.getD (c + 1) 0#8).extractLsb' 4 4
                q2 := (B.getD (c + 1) 0#8).extractLsb' 0 4
                body := B.reverse.take (B.length - (c + 2)) }
            dvValid := true
            outbox := s.outbox ++ [[0x00#8]] }

/-- Rules R201, R262: UNPACK of any other length answers BadFormat with `DV` unchanged. -/
def Obligations.UnpackRejectsOtherLengths : Prop :=
  ∀ (s : State) (B : List Byte), B.length ∉ [15, 35, 37, 67, 69] →
    exec (.unpack B) s = .next { s with outbox := s.outbox ++ [[0x02#8]] }

/-- Rule R206 item 1 in commands: UNPACK then PACK returns the operand of UNPACK, from every state. -/
def Obligations.UnpackThenPackReturnsBytes : Prop :=
  ∀ (s : State) (B : List Byte), B.length ∈ [15, 35, 37, 67, 69] →
    ∃ t : State, runCommands [.unpack B, .pack] s = .next t
      ∧ t.outbox = s.outbox ++ [[0x00#8], 0x00#8 :: lenPrefixed B]

/-- Rules R39, R206 item 1: PACK's bytes unpack to the digest value they came from. -/
def Obligations.UnpackOfPack : Prop :=
  ∀ D : DigestValue, D.Shaped → unpackBytes (packBytes D) = some D

/-- Rules R120, R121, R202, R203: HEX and HEXT1 answer the upper-case hex text of their bytes, with and
without the tag `T1`, and change nothing else. -/
def Obligations.HexReturnsUpperCaseText : Prop :=
  ∀ (s : State) (B : List Byte), B.length ≤ 32766 →
    let digits : List Byte := [0x30#8, 0x31#8, 0x32#8, 0x33#8, 0x34#8, 0x35#8, 0x36#8, 0x37#8, 0x38#8,
      0x39#8, 0x41#8, 0x42#8, 0x43#8, 0x44#8, 0x45#8, 0x46#8]
    let text := B.flatMap fun v => [digits.getD (v.toNat / 16) 0#8, digits.getD (v.toNat % 16) 0#8]
    exec (.hex B) s
        = .next
            { s with
              outbox := s.outbox ++
                [0x00#8 :: BitVec.ofNat 8 (2 * B.length / 256) :: BitVec.ofNat 8 (2 * B.length % 256)
                  :: text] }
      ∧ exec (.hext1 B) s
        = .next
            { s with
              outbox := s.outbox ++
                [0x00#8 :: BitVec.ofNat 8 ((2 + 2 * B.length) / 256)
                  :: BitVec.ofNat 8 ((2 + 2 * B.length) % 256) :: 0x54#8 :: 0x31#8 :: text] }

/-- Rules R122, R204: UNHEX of an even number of hex characters answers the bytes their pairs spell, first
character the high nibble, and changes nothing else. `0`..`9` are 0..9 and `A`..`F` are 10..15 in every
build, `a`..`f` are 10..15 where `HEX_LOWER_OK` is true (character codes: log 20). -/
def Obligations.UnhexReturnsBytes : Prop :=
  ∀ (s : State) (S B : List Byte),
    let spells : Byte → Nat → Prop := fun ch v =>
      (0x30 ≤ ch.toNat ∧ ch.toNat ≤ 0x39 ∧ v = ch.toNat - 0x30)
        ∨ (0x41 ≤ ch.toNat ∧ ch.toNat ≤ 0x46 ∧ v = 10 + (ch.toNat - 0x41))
        ∨ (s.build.hexLowerOk = true ∧ 0x61 ≤ ch.toNat ∧ ch.toNat ≤ 0x66
            ∧ v = 10 + (ch.toNat - 0x61))
    S.length = 2 * B.length →
    (∀ n, n < B.length →
      spells (S.getD (2 * n) 0#8) ((B.getD n 0#8).toNat / 16)
      ∧ spells (S.getD (2 * n + 1) 0#8) ((B.getD n 0#8).toNat % 16)) →
    exec (.unhex S) s = .next { s with outbox := s.outbox ++ [0x00#8 :: lenPrefixed B] }

/-- Rules R122, R204: UNHEX of an odd number of characters, or of a text with a character that is no hex
digit in this build, answers BadFormat and changes nothing. -/
def Obligations.UnhexRejectsOtherText : Prop :=
  ∀ (s : State) (S : List Byte),
    (S.length % 2 = 1
      ∨ ∃ ch ∈ S,
          ¬(0x30 ≤ ch.toNat ∧ ch.toNat ≤ 0x39) ∧ ¬(0x41 ≤ ch.toNat ∧ ch.toNat ≤ 0x46)
            ∧ ¬(s.build.hexLowerOk = true ∧ 0x61 ≤ ch.toNat ∧ ch.toNat ≤ 0x66)) →
    exec (.unhex S) s = .next { s with outbox := s.outbox ++ [[0x02#8]] }

/-- Rule R206 items 2 and 3: UNHEX of the text HEX returns gives the bytes back, for every length; and an
even number of upper-case hex digits is the text HEX returns for the bytes UNHEX reads from it. -/
def Obligations.UnhexInvertsHex : Prop :=
  ∀ s : State,
    (∀ B : List Byte, B.length ≤ 32766 →
      ∃ text : List Byte,
        exec (.hex B) s = .next { s with outbox := s.outbox ++ [0x00#8 :: lenPrefixed text] }
          ∧ exec (.unhex text) s = .next { s with outbox := s.outbox ++ [0x00#8 :: lenPrefixed B] })
    ∧ ∀ S : List Byte, S.length % 2 = 0 →
      (∀ ch ∈ S, (0x30 ≤ ch.toNat ∧ ch.toNat ≤ 0x39) ∨ (0x41 ≤ ch.toNat ∧ ch.toNat ≤ 0x46)) →
      ∃ B : List Byte,
        exec (.unhex S) s = .next { s with outbox := s.outbox ++ [0x00#8 :: lenPrefixed B] }
          ∧ exec (.hex B) s = .next { s with outbox := s.outbox ++ [0x00#8 :: lenPrefixed S] }

/-- Rules R124, R205: PARSE of the hex text of a packed digest, with or without the tag `T1`, in any mode,
loads the digest value UNPACK of those bytes loads. -/
def Obligations.ParseLoadsDigestText : Prop :=
  ∀ (s : State) (S B : List Byte) (c : Nat) (tagged : Bool),
    hexDec s.build.hexLowerOk S = some B →
    (B.length, c) ∈ [(15, 1), (35, 1), (37, 3), (67, 1), (69, 3)] →
    exec (.parse (if tagged then 0x54#8 :: 0x31#8 :: S else S)) s
      = .next
          { s with
            dv :=
              { checksum := (B.take c).map fun v => v.rotateLeft 4
                lvalue := (B.getD c 0#8).rotateLeft 4
                q1 := (B.getD (c + 1) 0#8).extractLsb' 4 4
                q2 := (B.getD (c + 1) 0#8).extractLsb' 0 4
                body := B.reverse.take (B.length - (c + 2)) }
            dvValid := true
            outbox := s.outbox ++ [[0x00#8]] }

/-- Rules R124, R205, R262: PARSE of a text that, after an optional leading `T1`, is not of one of the five
hex lengths or holds a character that is no hex digit in this build answers BadFormat with `DV`
unchanged. -/
def Obligations.ParseRejectsOtherText : Prop :=
  ∀ (s : State) (S : List Byte),
    let body := if S.take 2 = [0x54#8, 0x31#8] then S.drop 2 else S
    (body.length ∉ [30, 70, 74, 134, 138]
      ∨ ∃ ch ∈ body,
          ¬(0x30 ≤ ch.toNat ∧ ch.toNat ≤ 0x39) ∧ ¬(0x41 ≤ ch.toNat ∧ ch.toNat ≤ 0x46)
            ∧ ¬(s.build.hexLowerOk = true ∧ 0x61 ≤ ch.toNat ∧ ch.toNat ≤ 0x66)) →
    exec (.parse S) s = .next { s with outbox := s.outbox ++ [[0x02#8]] }

/-- Rule R206 item 4: PARSE of the hex text of `pack(D)`, tagged or not, loads `D`. -/
def Obligations.ParseOfPackedText : Prop :=
  ∀ (s : State) (D : DigestValue) (tagged : Bool), D.Shaped →
    exec (.parse (if tagged then tagT1 ++ hexEnc (packBytes D) else hexEnc (packBytes D))) s
      = .next { s with dv := D, dvValid := true, outbox := s.outbox ++ [[0x00#8]] }

/-! ### The scorer -/

/-- Rules R230, R233 to R236, R238: SCORE of two packed digests of one length, in any mode, answers the
sum of the parts as 4 bytes and changes nothing else. `ring x y n` is the modular distance. That the parts
are added is rule R238's own inference: the source does not write the word (91_not_in_source.md N18). -/
def Obligations.ScoreReturnsSumOfParts : Prop :=
  ∀ (s : State) (A B : List Byte) (a b : DigestValue) (includeLength : Bool),
    unpackBytes A = some a → unpackBytes B = some b → A.length = B.length →
    let ring : Nat → Nat → Nat → Nat := fun x y n =>
      min (Int.ofNat x - Int.ofNat y).natAbs (n - (Int.ofNat x - Int.ofNat y).natAbs)
    let checksumPart := if a.checksum = b.checksum then 0 else 1
    let lengthPart :=
      let d := ring a.lvalue.toNat b.lvalue.toNat 256
      if d ≤ 1 then d else 12 * d
    let ratioPart : Nibble → Nibble → Nat := fun qa qb =>
      let d := ring qa.toNat qb.toNat 16
      if d ≤ 1 then d else 12 * (d - 1)
    exec (.score A B includeLength) s
      = .next
          { s with
            outbox := s.outbox ++
              [0x00#8 :: beBytes 4
                (checksumPart + (if includeLength then lengthPart else 0) + ratioPart a.q1 b.q1
                  + ratioPart a.q2 b.q2 + (List.zipWith bitPairDiff a.body b.body).sum)] }

/-- Rules R237, R262, R263, R267: SCORE answers BadFormat where either operand has a length that is no
packed length, and otherwise Mismatched where the lengths differ; nothing else changes. -/
def Obligations.ScoreRejectsBadShapes : Prop :=
  ∀ (s : State) (A B : List Byte) (includeLength : Bool),
    (A.length ∉ [15, 35, 37, 67, 69] ∨ B.length ∉ [15, 35, 37, 67, 69] →
      exec (.score A B includeLength) s = .next { s with outbox := s.outbox ++ [[0x02#8]] })
    ∧ (A.length ∈ [15, 35, 37, 67, 69] → B.length ∈ [15, 35, 37, 67, 69] → A.length ≠ B.length →
      exec (.score A B includeLength) s = .next { s with outbox := s.outbox ++ [[0x03#8]] })

/-- Rules R230, R234: the length part is the distance of the length codes on a ring of 256, twelve-fold
from 2 on. -/
def Obligations.ScoreLengthOnRing : Prop :=
  ∀ a b : DigestValue,
    let e := (Int.ofNat a.lvalue.toNat - Int.ofNat b.lvalue.toNat).natAbs
    scoreLength a b = if min e (256 - e) ≤ 1 then min e (256 - e) else 12 * min e (256 - e)

/-- Rules R230, R235: the ratio part is the distance of the nibbles on a ring of 16, from 2 on twelve times
one less. -/
def Obligations.ScoreRatioOnRing : Prop :=
  ∀ qa qb : Nibble,
    let e := (Int.ofNat qa.toNat - Int.ofNat qb.toNat).natAbs
    scoreQ qa qb = if min e (16 - e) ≤ 1 then min e (16 - e) else 12 * (min e (16 - e) - 1)

/-- Rules R231, R232: an entry of the bit-pair difference table is the sum over the four 2-bit digits of
their difference with 3 replaced by 6; it is at most 24, and 24 just where every digit pair is 0 and 3;
it is symmetric, and 0 only on the diagonal. The symmetry and the place of the maximum are inferences
rule R232 draws; that no other entry is 0 stands in no rule (95_test_vectors.md V23 records it). -/
def Obligations.BitPairDiffTable : Prop :=
  ∀ x y : Byte,
    bitPairDiff x y
        = ((List.range 4).map fun k =>
            let e := (Int.ofNat (x.toNat / 4 ^ k % 4) - Int.ofNat (y.toNat / 4 ^ k % 4)).natAbs
            if e = 3 then 6 else e).sum
      ∧ bitPairDiff x y ≤ 24 ∧ bitPairDiff x y = bitPairDiff y x ∧ (bitPairDiff x y = 0 ↔ x = y)
      ∧ (bitPairDiff x y = 24 ↔
          ∀ k, k < 4 →
            (x.toNat / 4 ^ k % 4 = 0 ∧ y.toNat / 4 ^ k % 4 = 3)
              ∨ (x.toNat / 4 ^ k % 4 = 3 ∧ y.toNat / 4 ^ k % 4 = 0))

/-- Rule R239: SCORE does not care for the order of its operands, and a valid packed digest scores 0
against itself; a score of 0 does not say that the digests are equal. -/
def Obligations.ScoreIsSymmetricAndZeroOnSelf : Prop :=
  ∀ (s : State) (A B : List Byte) (includeLength : Bool),
    exec (.score A B includeLength) s = exec (.score B A includeLength) s
      ∧ (A.length ∈ [15, 35, 37, 67, 69] →
          exec (.score A A includeLength) s
            = .next { s with outbox := s.outbox ++ [[0x00#8, 0#8, 0#8, 0#8, 0#8]] })
      ∧ ∃ A' B' : List Byte, A' ≠ B'
          ∧ exec (.score A' B' false) s
            = .next { s with outbox := s.outbox ++ [[0x00#8, 0#8, 0#8, 0#8, 0#8]] }

/-- Rule R240: the printed bound, the tight bound `1 + 1536 + 168 + 24·|body|`, 1536 less without the length
part, and, for every body length, a pair of digests that reaches it. -/
def Obligations.ScoreBound : Prop :=
  (∀ (a b : DigestValue) (includeLength : Bool), a.body.length = b.body.length →
    score a b includeLength ≤ 1 + 12 * 128 + 12 * 15 * 2 + 24 * a.body.length
      ∧ score a b includeLength
        ≤ 1 + (if includeLength then 1536 else 0) + 168 + 24 * a.body.length)
  ∧ ∀ m : Nat, ∃ a b : DigestValue, a.body.length = m ∧ b.body.length = m
      ∧ score a b true = 1 + 1536 + 168 + 24 * m ∧ score a b false = 1 + 168 + 24 * m

/-! ### The mixer and the quantizer -/

/-- Rule R143, of the table of rule R141 (log 8): 256 entries, every byte value exactly once. -/
def Obligations.PearsonIsPermutation : Prop :=
  pearsonTable.length = 256 ∧ ∀ y : Byte, ∃! x : Byte, pearson x = y

/-- Rule R143, the inference it draws: with the other operands fixed, each mixing function and one step of
the fold is a bijection in any one operand, the accumulator of the step among them; the fold takes such a
step for each byte, and so is a bijection in the byte at any one position. -/
def Obligations.MixersAreBijections : Prop :=
  Function.Bijective hash1
    ∧ ∀ a b : Byte,
      Function.Bijective (fun x => hash2 x a) ∧ Function.Bijective (fun x => hash2 a x)
      ∧ Function.Bijective (fun x => hash3 x a b) ∧ Function.Bijective (fun x => hash3 a x b)
      ∧ Function.Bijective (fun x => hash3 a b x)
      ∧ Function.Bijective (fun x => pearson (a ^^^ x))
      ∧ Function.Bijective (fun h => pearson (h ^^^ a))
      ∧ (∀ X : List Byte, hashSeq (X ++ [a]) = pearson (hashSeq X ^^^ a))
      ∧ ∀ X Y : List Byte, Function.Bijective (fun x => hashSeq (X ++ x :: Y))

/-- Rule R142: PHASH in any mode answers the end of the chain `h_0 = 0`, `h_{i+1} = P[h_i ^ X[i]]` and
changes nothing else; its request is the opcode 0x0D and the length-prefixed bytes. -/
def Obligations.PhashFoldsBytes : Prop :=
  ∀ (s : State) (X : List Byte) (h : Nat → Byte), h 0 = 0#8 →
    (∀ n, n < X.length → h (n + 1) = pearson (h n ^^^ X.getD n 0#8)) →
    exec (.phash X) s = .next { s with outbox := s.outbox ++ [[0x00#8, h X.length]] }
      ∧ encode (.phash X)
        = 0x0D#8 :: BitVec.ofNat 8 (X.length / 256) :: BitVec.ofNat 8 (X.length % 256) :: X

/-- Rules R152, R154: LCAP in any mode answers the smallest index whose threshold is at least the operand
and changes nothing else. -/
def Obligations.LcapReturnsSmallestIndex : Prop :=
  ∀ (s : State) (v : U64),
    ∃ i : Byte, v ≤ topval i.toNat ∧ (∀ j, j < i.toNat → topval j < v)
      ∧ exec (.lcap v) s = .next { s with outbox := s.outbox ++ [[0x00#8, i]] }

/-- Rule R151: the four constraints on the threshold table. -/
def Obligations.ThresholdsMeetConstraints : Prop :=
  topval 0 = 1#64 ∧ (topval 255).toNat = 2 ^ 64 - 1
    ∧ (∀ i, i < 255 → topval i < topval (i + 1))
    ∧ topval 5 < 12#64 ∧ 12#64 ≤ topval 6
    ∧ topval 6 < 19#64 ∧ 19#64 ≤ topval 7
    ∧ topval 52 < 65536#64 ∧ 65536#64 ≤ topval 53

/-- Rule R155: the values and laws that hold for every conforming threshold table. -/
def Obligations.LengthCodeLaws : Prop :=
  lCapturing 0#64 = 0#8 ∧ lCapturing 1#64 = 0#8 ∧ lCapturing 2#64 = 1#8
    ∧ (lCapturing 3#64 = 1#8 ∨ lCapturing 3#64 = 2#8)
    ∧ (∀ n, 1 ≤ n → n ≤ 255 → (lCapturing (BitVec.ofNat 64 n)).toNat ≤ n - 1)
    ∧ (∀ i, i < 255 → lCapturing (topval i) = BitVec.ofNat 8 i
        ∧ lCapturing (topval i + 1#64) = BitVec.ofNat 8 (i + 1))
    ∧ lCapturing (BitVec.allOnes 64) = 255#8
    ∧ (∀ x y : U64, x ≤ y → lCapturing x ≤ lCapturing y)
    ∧ lCapturing 12#64 = 6#8 ∧ lCapturing 19#64 = 7#8 ∧ lCapturing 65536#64 = 53#8

/-! ### The inspection reads -/

/-- Rules R250 to R254: with `DEBUG_EN` and in ACTIVE the four reads answer the counter, the raw checksum
bytes, the byte count and the lag window, and change nothing else. -/
def Obligations.InspectionReadsInActive : Prop :=
  ∀ s : State, s.build.debugEn = true → s.mode = .active → s.cfg.Valid →
    (∀ i : Byte, exec (.dbgb i) s
        = .next { s with outbox := s.outbox ++ [0x00#8 :: beBytes 8 s.dig.bucket[i.toNat].toNat] })
    ∧ exec .dbgc s
        = .next
            { s with
              outbox := s.outbox ++
                [0x00#8 :: 0x00#8 :: BitVec.ofNat 8 s.cfg.c :: s.dig.checksum.toList.take s.cfg.c] }
    ∧ exec .dbgn s
        = .next { s with outbox := s.outbox ++ [0x00#8 :: beBytes 8 s.dig.count.toNat] }
    ∧ exec .dbgl s
        = .next
            { s with
              outbox := s.outbox ++
                [0x00#8 :: 0x00#8 :: BitVec.ofNat 8 (s.cfg.w - 1)
                  :: s.dig.lag.toList.take (s.cfg.w - 1)] }

/-- Rules R250, R265, R267: without `DEBUG_EN` the four opcodes answer BadRequest in every mode; with it,
UndefinedUse outside ACTIVE; nothing else changes. -/
def Obligations.InspectionReadsTurnedAway : Prop :=
  ∀ (s : State) (i : Instr), (∃ j, i = .dbgb j) ∨ i = .dbgc ∨ i = .dbgn ∨ i = .dbgl →
    (s.build.debugEn = false → exec i s = .next { s with outbox := s.outbox ++ [[0x04#8]] })
    ∧ (s.build.debugEn = true → s.mode ≠ .active →
        exec i s = .next { s with outbox := s.outbox ++ [[0x05#8]] })

/-- Rules R20, R70: HEX, HEXT1, UNHEX, SCORE, LCAP and PHASH write no state and answer the same bytes in
every state of one build. -/
def Obligations.StatelessCommandsAreFunctions : Prop :=
  ∀ i : Instr,
    ((∃ B, i = .hex B) ∨ (∃ B, i = .hext1 B) ∨ (∃ S, i = .unhex S) ∨ (∃ A B l, i = .score A B l)
      ∨ (∃ v, i = .lcap v) ∨ (∃ X, i = .phash X)) →
    ∀ build : Build, ∃ r : List Byte, ∀ s : State, s.build = build →
      exec i s = .next { s with outbox := s.outbox ++ [r] }

/-! ### Names -/

/-- Rules R105, R130: the full name of each of the 25 valid triples spells that triple, and the CFG command
made from it loads that triple. -/
def Obligations.NamesSpellTheirTriples : Prop :=
  ∀ g : Cfg, g.Valid →
    tripleOfName (fullName g) = some g
      ∧ ∃ w c b, cfgCommand g = .cfg w c b ∧ cfgTriple w c b = some g
end

