-- ==== Sys2Proof/Laws/Decode.lean ====
section
/-! SUPPORT. The byte-order helpers and the request formats: what each decodes and encodes. -/

namespace Sys2Proof

/-! ### Byte order -/

@[simp] theorem beBytes_length (k v : Nat) : (beBytes k v).length = k := by
  induction k with
  | zero => rfl
  | succ k ih => simp [beBytes, ih]

theorem beNat_two (hi lo : Byte) : beNat [hi, lo] = hi.toNat * 256 + lo.toNat := by
  simp [beNat]

theorem foldl_be (bs : List Byte) (acc : Nat) :
    bs.foldl (fun a v => a * 256 + v.toNat) acc = acc * 256 ^ bs.length + beNat bs := by
  induction bs generalizing acc with
  | nil => simp [beNat]
  | cons v bs ih =>
    simp only [List.foldl_cons, List.length_cons, beNat]
    rw [ih, ih (0 * 256 + v.toNat)]
    ring

theorem beNat_cons (v : Byte) (bs : List Byte) :
    beNat (v :: bs) = v.toNat * 256 ^ bs.length + beNat bs := by
  rw [beNat, List.foldl_cons, foldl_be]
  ring

theorem beNat_lt (bs : List Byte) : beNat bs < 256 ^ bs.length := by
  induction bs with
  | nil => simp [beNat]
  | cons v bs ih =>
    rw [beNat_cons, List.length_cons, pow_succ]
    have := v.isLt
    nlinarith

/-- The bytes of a number spell it, modulo the width. -/
theorem beNat_beBytes (k v : Nat) : beNat (beBytes k v) = v % 256 ^ k := by
  induction k generalizing v with
  | zero => simp [beBytes, beNat, Nat.mod_one]
  | succ k ih =>
    rw [beBytes, beNat_cons, beBytes_length, ih, BitVec.toNat_ofNat]
    have h1 : v % 256 ^ (k + 1) = v % 256 ^ k + 256 ^ k * (v / 256 ^ k % 256) := by
      rw [pow_succ, Nat.mod_mul]
    rw [h1]
    norm_num
    ring

/-- Every byte sequence is the bytes of the number it spells. -/
theorem beBytes_beNat (bs : List Byte) : beBytes bs.length (beNat bs) = bs := by
  induction bs with
  | nil => rfl
  | cons v bs ih =>
    have hlt := beNat_lt bs
    have hpos : 0 < 256 ^ bs.length := by positivity
    have hmod : ∀ k n m : Nat, beBytes k (n * 256 ^ k + m) = beBytes k m := by
      intro k
      induction k with
      | zero => intros; rfl
      | succ k ihk =>
        intro n m
        have e : n * 256 ^ (k + 1) + m = n * 256 * 256 ^ k + m := by ring
        have hk : 0 < 256 ^ k := by positivity
        rw [beBytes, beBytes, e, ihk]
        congr 1
        apply BitVec.eq_of_toNat_eq
        rw [BitVec.toNat_ofNat, BitVec.toNat_ofNat, Nat.add_comm, Nat.add_mul_div_right _ _ hk]
        omega
    rw [List.length_cons, beBytes, beNat_cons, hmod, ih]
    congr 1
    apply BitVec.eq_of_toNat_eq
    rw [BitVec.toNat_ofNat, Nat.add_comm, Nat.add_mul_div_right _ _ hpos, Nat.div_eq_of_lt hlt]
    have := v.isLt
    omega

theorem beBytes_two (n : Nat) :
    beBytes 2 n = [BitVec.ofNat 8 (n / 256), BitVec.ofNat 8 (n % 256)] := by
  simp only [beBytes]
  congr 2
  apply BitVec.eq_of_toNat_eq
  simp only [BitVec.toNat_ofNat]
  omega

/-- The two length bytes of a payload of at most 65 535 bytes spell its length. -/
theorem beNat_lenBytes {n : Nat} (h : n ≤ 65535) :
    beNat [BitVec.ofNat 8 (n / 256), BitVec.ofNat 8 (n % 256)] = n := by
  rw [beNat_two, BitVec.toNat_ofNat, BitVec.toNat_ofNat]
  omega

theorem lenPrefixed_eq (X : List Byte) :
    lenPrefixed X
      = BitVec.ofNat 8 (X.length / 256) :: BitVec.ofNat 8 (X.length % 256) :: X := by
  rw [lenPrefixed, beBytes_two]
  rfl

/-- Two length bytes and the payload they count are its length-prefixed form. -/
theorem lenPrefixed_of_beNat {hi lo : Byte} {X : List Byte} (h : X.length = beNat [hi, lo]) :
    X.length ≤ 65535 ∧ lenPrefixed X = hi :: lo :: X := by
  have hh := hi.isLt
  have hl := lo.isLt
  rw [beNat_two] at h
  refine ⟨by omega, ?_⟩
  rw [lenPrefixed_eq, h]
  congr 1
  · apply BitVec.eq_of_toNat_eq
    rw [BitVec.toNat_ofNat]
    omega
  · congr 1
    apply BitVec.eq_of_toNat_eq
    rw [BitVec.toNat_ofNat]
    omega

/-! ### The formats: what each accepts -/

theorem decodeF0_eq_ok {i j : Instr} {rest : List Byte} :
    decodeF0 i rest = .ok j ↔ rest = [] ∧ j = i := by
  cases rest <;> simp [decodeF0, eq_comm]

theorem decodeF1_eq_ok {f : Byte → Instr} {j : Instr} {rest : List Byte} :
    decodeF1 f rest = .ok j ↔ ∃ a, rest = [a] ∧ j = f a := by
  rcases rest with _ | ⟨a, _ | ⟨b, r⟩⟩ <;> simp [decodeF1, eq_comm]

theorem decodeFV_eq_ok {f : List Byte → Instr} {j : Instr} {rest : List Byte} :
    decodeFV f rest = .ok j ↔ ∃ X : List Byte, X.length ≤ 65535 ∧ rest = lenPrefixed X ∧ j = f X := by
  constructor
  · intro h
    unfold decodeFV at h
    split at h
    · split at h
      · next hi lo X hlen =>
        obtain ⟨hle, hp⟩ := lenPrefixed_of_beNat hlen
        exact ⟨X, hle, hp.symm, by simpa using h.symm⟩
      · cases h
    · cases h
  · rintro ⟨X, hle, rfl, rfl⟩
    rw [lenPrefixed_eq]
    simp [decodeFV, beNat_lenBytes hle]

theorem decodeHexFV_eq_ok {f : List Byte → Instr} {j : Instr} {rest : List Byte} :
    decodeHexFV f rest = .ok j
      ↔ ∃ X : List Byte, X.length ≤ 32766 ∧ rest = lenPrefixed X ∧ j = f X := by
  unfold decodeHexFV
  constructor
  · intro h
    split at h
    · cases h
    · next i hi =>
      obtain ⟨X, hle, rfl, rfl⟩ := decodeFV_eq_ok.mp hi
      split at h
      · next hlen =>
        refine ⟨X, ?_, rfl, by simpa using h.symm⟩
        rw [lenPrefixed, List.length_append, beBytes_length] at hlen
        omega
      · cases h
  · rintro ⟨X, hle, rfl, rfl⟩
    rw [decodeFV_eq_ok.mpr ⟨X, by omega, rfl, rfl⟩]
    have : (lenPrefixed X).length ≤ 2 + 32766 := by
      rw [lenPrefixed, List.length_append, beBytes_length]; omega
    simp [this]

theorem decodeFQ_eq_ok {f : U64 → Instr} {j : Instr} {rest : List Byte} :
    decodeFQ f rest = .ok j ↔ ∃ v : U64, rest = beBytes 8 v.toNat ∧ j = f v := by
  unfold decodeFQ
  constructor
  · intro h
    split at h
    · next hlen =>
      refine ⟨BitVec.ofNat 64 (beNat rest), ?_, by simpa using h.symm⟩
      have hlt := beNat_lt rest
      rw [hlen] at hlt
      rw [BitVec.toNat_ofNat, Nat.mod_eq_of_lt (by simpa using hlt), ← hlen, beBytes_beNat]
    · cases h
  · rintro ⟨v, rfl, rfl⟩
    have hv := v.isLt
    rw [if_pos (by simp), beNat_beBytes, Nat.mod_eq_of_lt (by simpa using hv)]
    simp

theorem scoreFlags_spec (fl : Byte) :
    fl.extractLsb' 1 7 = 0#7 → fl = scoreFlags (fl.getLsbD 0) := by
  revert fl
  decide

theorem decodeFS_eq_ok {f : List Byte → List Byte → Bool → Instr} {j : Instr} {rest : List Byte} :
    decodeFS f rest = .ok j
      ↔ ∃ (A B : List Byte) (l : Bool), A.length ≤ 65535 ∧ B.length ≤ 65535
          ∧ rest = scoreFlags l :: (lenPrefixed A ++ lenPrefixed B) ∧ j = f A B l := by
  constructor
  · intro h
    unfold decodeFS at h
    split at h
    · next fl hiA loA tail =>
      split at h
      · next hiB loB B hdrop =>
        split at h
        · next hB =>
          split at h
          · next hfl =>
            have hle : beNat [hiA, loA] ≤ tail.length := by
              by_contra hc
              rw [List.drop_eq_nil_of_le (by omega)] at hdrop
              cases hdrop
            have hA : (tail.take (beNat [hiA, loA])).length = beNat [hiA, loA] := by
              rw [List.length_take]; omega
            obtain ⟨hA1, hA2⟩ := lenPrefixed_of_beNat hA
            obtain ⟨hB1, hB2⟩ := lenPrefixed_of_beNat hB
            refine ⟨_, B, fl.getLsbD 0, hA1, hB1, ?_, by simpa using h.symm⟩
            rw [hA2, hB2, ← scoreFlags_spec fl hfl, ← hdrop]
            simp
          · cases h
        · cases h
      · cases h
    · cases h
  · rintro ⟨A, B, l, hA, hB, rfl, rfl⟩
    rw [lenPrefixed_eq A, lenPrefixed_eq B]
    simp only [List.cons_append]
    unfold decodeFS
    simp only [beNat_lenBytes hA, List.drop_left, List.take_left, beNat_lenBytes hB]
    cases l <;> simp [scoreFlags]

/-! ### The opcode map: the format each opcode byte selects -/

theorem decode_cfg (rest : List Byte) : decode (0x01#8 :: rest) = decodeF1 cfgOfByte rest := rfl
theorem decode_upd (rest : List Byte) : decode (0x02#8 :: rest) = decodeF1 .upd rest := rfl
theorem decode_rst (rest : List Byte) : decode (0x03#8 :: rest) = decodeF0 .rst rest := rfl
theorem decode_fin (rest : List Byte) : decode (0x04#8 :: rest) = decodeF0 .fin rest := rfl
theorem decode_pack (rest : List Byte) : decode (0x05#8 :: rest) = decodeF0 .pack rest := rfl
theorem decode_unpack (rest : List Byte) : decode (0x06#8 :: rest) = decodeFV .unpack rest := rfl
theorem decode_hex (rest : List Byte) : decode (0x07#8 :: rest) = decodeHexFV .hex rest := rfl
theorem decode_hext1 (rest : List Byte) : decode (0x08#8 :: rest) = decodeHexFV .hext1 rest := rfl
theorem decode_unhex (rest : List Byte) : decode (0x09#8 :: rest) = decodeFV .unhex rest := rfl
theorem decode_score (rest : List Byte) : decode (0x0A#8 :: rest) = decodeFS .score rest := rfl
theorem decode_parse (rest : List Byte) : decode (0x0B#8 :: rest) = decodeFV .parse rest := rfl
theorem decode_lcap (rest : List Byte) : decode (0x0C#8 :: rest) = decodeFQ .lcap rest := rfl
theorem decode_phash (rest : List Byte) : decode (0x0D#8 :: rest) = decodeFV .phash rest := rfl
theorem decode_dbgb (rest : List Byte) : decode (0x10#8 :: rest) = decodeF1 .dbgb rest := rfl
theorem decode_dbgc (rest : List Byte) : decode (0x11#8 :: rest) = decodeF0 .dbgc rest := rfl
theorem decode_dbgn (rest : List Byte) : decode (0x12#8 :: rest) = decodeF0 .dbgn rest := rfl
theorem decode_dbgl (rest : List Byte) : decode (0x13#8 :: rest) = decodeF0 .dbgl rest := rfl

/-- The opcode of an accepted request is one of the 17 of the map. -/
theorem decodeOp_eq_ok {op : Byte} {rest : List Byte} {i : Instr} (h : decodeOp op rest = .ok i) :
    op.toNat ∈ [1, 2, 3, 4, 5, 6, 7, 8, 9, 10, 11, 12, 13, 16, 17, 18, 19] := by
  unfold decodeOp at h
  split at h <;> first | (next e => simp [e]) | cases h

theorem cfgOfByte_cfgByte (wraw : BitVec 4) (craw bsel : BitVec 2) :
    cfgOfByte (cfgByte wraw craw bsel) = .cfg wraw craw bsel := by
  revert wraw craw bsel
  decide

theorem cfgByte_of_fields (a : Byte) :
    cfgByte (a.extractLsb' 0 4) (a.extractLsb' 4 2) (a.extractLsb' 6 2) = a := by
  revert a
  decide

end Sys2Proof
end

