-- ==== Sys2Proof/Laws/State.lean ====
section
/-! SUPPORT. The small lemmas of the state: what each field is after each shared update. -/

namespace Sys2Proof.Machine

/-! ### answer -/

@[simp] theorem State.answer_cfg (s : State) (r : List Byte) : (s.answer r).cfg = s.cfg := rfl
@[simp] theorem State.answer_mode (s : State) (r : List Byte) : (s.answer r).mode = s.mode := rfl
@[simp] theorem State.answer_dig (s : State) (r : List Byte) : (s.answer r).dig = s.dig := rfl
@[simp] theorem State.answer_dv (s : State) (r : List Byte) : (s.answer r).dv = s.dv := rfl
@[simp] theorem State.answer_dvValid (s : State) (r : List Byte) :
    (s.answer r).dvValid = s.dvValid := rfl
@[simp] theorem State.answer_build (s : State) (r : List Byte) : (s.answer r).build = s.build := rfl
@[simp] theorem State.answer_freeDraws (s : State) (r : List Byte) :
    (s.answer r).freeDraws = s.freeDraws := rfl
@[simp] theorem State.answer_inbox (s : State) (r : List Byte) : (s.answer r).inbox = s.inbox := rfl
@[simp] theorem State.answer_outbox (s : State) (r : List Byte) :
    (s.answer r).outbox = s.outbox ++ [r] := rfl

/-! ### respond and raise are answers -/

theorem State.respond_eq (s : State) (result : List Byte) :
    s.respond result = s.answer (0x00#8 :: result) := rfl

theorem State.raise_eq (s : State) (k : Status) : s.raise k = s.answer [statusCode k] := rfl

@[simp] theorem State.respond_cfg (s : State) (r : List Byte) : (s.respond r).cfg = s.cfg := rfl
@[simp] theorem State.respond_mode (s : State) (r : List Byte) : (s.respond r).mode = s.mode := rfl
@[simp] theorem State.respond_dig (s : State) (r : List Byte) : (s.respond r).dig = s.dig := rfl
@[simp] theorem State.respond_dv (s : State) (r : List Byte) : (s.respond r).dv = s.dv := rfl
@[simp] theorem State.respond_dvValid (s : State) (r : List Byte) :
    (s.respond r).dvValid = s.dvValid := rfl
@[simp] theorem State.respond_build (s : State) (r : List Byte) :
    (s.respond r).build = s.build := rfl
@[simp] theorem State.respond_freeDraws (s : State) (r : List Byte) :
    (s.respond r).freeDraws = s.freeDraws := rfl
@[simp] theorem State.respond_inbox (s : State) (r : List Byte) :
    (s.respond r).inbox = s.inbox := rfl
@[simp] theorem State.respond_outbox (s : State) (r : List Byte) :
    (s.respond r).outbox = s.outbox ++ [0x00#8 :: r] := rfl

@[simp] theorem State.raise_cfg (s : State) (k : Status) : (s.raise k).cfg = s.cfg := rfl
@[simp] theorem State.raise_mode (s : State) (k : Status) : (s.raise k).mode = s.mode := rfl
@[simp] theorem State.raise_dig (s : State) (k : Status) : (s.raise k).dig = s.dig := rfl
@[simp] theorem State.raise_dv (s : State) (k : Status) : (s.raise k).dv = s.dv := rfl
@[simp] theorem State.raise_dvValid (s : State) (k : Status) :
    (s.raise k).dvValid = s.dvValid := rfl
@[simp] theorem State.raise_build (s : State) (k : Status) : (s.raise k).build = s.build := rfl
@[simp] theorem State.raise_freeDraws (s : State) (k : Status) :
    (s.raise k).freeDraws = s.freeDraws := rfl
@[simp] theorem State.raise_inbox (s : State) (k : Status) : (s.raise k).inbox = s.inbox := rfl
@[simp] theorem State.raise_outbox (s : State) (k : Status) :
    (s.raise k).outbox = s.outbox ++ [[statusCode k]] := rfl

/-! ### emptied -/

@[simp] theorem State.emptied_cfg (s : State) : s.emptied.cfg = s.cfg := rfl
@[simp] theorem State.emptied_mode (s : State) : s.emptied.mode = .active := rfl
@[simp] theorem State.emptied_dig (s : State) : s.emptied.dig = emptyDigester := rfl
@[simp] theorem State.emptied_dv (s : State) : s.emptied.dv = s.dv := rfl
@[simp] theorem State.emptied_dvValid (s : State) : s.emptied.dvValid = s.dvValid := rfl
@[simp] theorem State.emptied_build (s : State) : s.emptied.build = s.build := rfl
@[simp] theorem State.emptied_freeDraws (s : State) : s.emptied.freeDraws = s.freeDraws := rfl
@[simp] theorem State.emptied_inbox (s : State) : s.emptied.inbox = s.inbox := rfl
@[simp] theorem State.emptied_outbox (s : State) : s.emptied.outbox = s.outbox := rfl

/-! ### the port -/

@[simp] theorem State.withRequest_inbox (s : State) (q : List Byte) :
    (s.withRequest q).inbox = q :: s.inbox := rfl
@[simp] theorem State.withRequest_outbox (s : State) (q : List Byte) :
    (s.withRequest q).outbox = s.outbox := rfl

theorem State.takeRequest_nil {s : State} (h : s.inbox = []) : s.takeRequest = none := by
  simp [State.takeRequest, h]

theorem State.takeRequest_cons {s : State} {q : List Byte} {rest : List (List Byte)}
    (h : s.inbox = q :: rest) : s.takeRequest = some (q, { s with inbox := rest }) := by
  simp [State.takeRequest, h]

end Sys2Proof.Machine
end

