-- ==== Sys2Proof/Laws/Ops.lean ====
section
/-! SUPPORT. What the shared operations of a command can do, said once. -/

namespace Sys2Proof.Machine

@[simp] theorem complete_ok (s t : State) (result : List Byte) :
    complete s (.ok (t, result)) = .next (t.respond result) := rfl

@[simp] theorem complete_error (s : State) (k : Status) :
    complete s (.error k) = .next (s.raise k) := rfl

/-- Everything the end of a command can be: OK in its new state, or a status in the old one. -/
theorem complete_eq_next {s t : State} {r : Except Status (State × List Byte)}
    (h : complete s r = .next t) :
    (∃ u result, r = .ok (u, result) ∧ t = u.respond result)
      ∨ (∃ k, r = .error k ∧ t = s.raise k) := by
  rcases r with k | ⟨u, result⟩
  · exact .inr ⟨k, rfl, by simpa using h.symm⟩
  · exact .inl ⟨u, result, rfl, by simpa using h.symm⟩

/-- Everything an inspection read can be. -/
theorem inspect_cases (s : State) (result : List Byte) :
    (s.build.debugEn = false ∧ inspect s result = .error .badRequest)
      ∨ (s.build.debugEn = true ∧ s.mode ≠ .active ∧ inspect s result = .error .undefinedUse)
      ∨ (s.build.debugEn = true ∧ s.mode = .active ∧ inspect s result = .ok (s, result)) := by
  unfold inspect
  cases s.build.debugEn <;> cases s.mode <;> simp

/-- Everything loading a digest value can be. -/
theorem loadDigest_cases (s : State) (D : Option DigestValue) :
    (D = none ∧ loadDigest s D = .error .badFormat)
      ∨ ∃ d, D = some d ∧ loadDigest s D = .ok ({ s with dv := d, dvValid := true }, []) := by
  cases D with
  | none => exact .inl ⟨rfl, rfl⟩
  | some d => exact .inr ⟨d, rfl, rfl⟩

/-- `cfgTriple` answers exactly the valid triples. -/
theorem cfgTriple_eq_some {wraw : BitVec 4} {craw bsel : BitVec 2} {g : Cfg}
    (h : cfgTriple wraw craw bsel = some g) :
    4 ≤ wraw.toNat ∧ wraw.toNat ≤ 8 ∧ (craw.toNat = 1 ∨ craw.toNat = 3) ∧ bsel.toNat ≠ 3
      ∧ ¬(bsel.toNat = 0 ∧ craw.toNat = 3)
      ∧ g = { w := wraw.toNat
              b := if bsel.toNat = 0 then 48 else if bsel.toNat = 1 then 128 else 256
              c := craw.toNat } := by
  have hb := bsel.isLt
  unfold cfgTriple bucketCount at h
  split_ifs at h with h1 h2
  have hcases : bsel.toNat = 0 ∨ bsel.toNat = 1 ∨ bsel.toNat = 2 ∨ bsel.toNat = 3 := by omega
  rcases hcases with e | e | e | e <;> simp [e] at h ⊢
  · refine ⟨by omega, by omega, by omega, h.1, ?_⟩; exact h.2.symm
  · refine ⟨by omega, by omega, by omega, ?_⟩; exact h.symm
  · refine ⟨by omega, by omega, by omega, ?_⟩; exact h.symm

/-- `cfgTriple` on a valid triple. -/
theorem cfgTriple_of_valid {wraw : BitVec 4} {craw bsel : BitVec 2}
    (h4 : 4 ≤ wraw.toNat) (h8 : wraw.toNat ≤ 8) (hc : craw.toNat = 1 ∨ craw.toNat = 3)
    (hb : bsel.toNat ≠ 3) (hbc : ¬(bsel.toNat = 0 ∧ craw.toNat = 3)) :
    cfgTriple wraw craw bsel
      = some { w := wraw.toNat
               b := if bsel.toNat = 0 then 48 else if bsel.toNat = 1 then 128 else 256
               c := craw.toNat } := by
  have hlt := bsel.isLt
  unfold cfgTriple bucketCount
  rw [if_neg (by omega), if_neg (by omega)]
  have hcases : bsel.toNat = 0 ∨ bsel.toNat = 1 ∨ bsel.toNat = 2 := by omega
  rcases hcases with e | e | e
  · have : craw.toNat ≠ 3 := fun hh => hbc ⟨e, hh⟩
    simp [e, this]
  · simp [e]
  · simp [e]

end Sys2Proof.Machine
end

