-- ==== Sys2Proof/Laws/Exec.lean ====
section
/-! SUPPORT. What each command can do, said once: every way it can end, with the next state of each. -/

namespace Sys2Proof.Machine

/-- Everything CFG can do (rule R160). -/
theorem execCfg_cases (wraw : BitVec 4) (craw bsel : BitVec 2) (s : State) :
    (∃ g, cfgTriple wraw craw bsel = some g
        ∧ exec (.cfg wraw craw bsel) s = .next (({ s with cfg := g } : State).emptied.respond []))
      ∨ (cfgTriple wraw craw bsel = none
        ∧ exec (.cfg wraw craw bsel) s = .next (s.raise .invalidParameter)) := by
  simp only [exec, execCfg]
  cases h : cfgTriple wraw craw bsel with
  | none => exact .inr ⟨rfl, rfl⟩
  | some g => exact .inl ⟨g, rfl, rfl⟩

/-- Everything RST can do (rule R161). -/
theorem execRst_cases (s : State) :
    (s.mode ≠ .unconf ∧ exec .rst s = .next (s.emptied.respond []))
      ∨ (s.mode = .unconf ∧ exec .rst s = .next (s.raise .undefinedUse)) := by
  simp only [exec, execRst]
  by_cases h : s.mode = .unconf <;> simp [h]

/-- Everything UPD can do (rule R162). -/
theorem execUpd_cases (x : Byte) (s : State) :
    (s.mode = .active ∧ s.dig.count.toNat ≠ countLimit ∧ ∃ d, absorb s.cfg x s.dig = some d
        ∧ exec (.upd x) s = .next (({ s with dig := d } : State).respond []))
      ∨ ((s.mode ≠ .active ∨ s.dig.count.toNat = countLimit ∨ absorb s.cfg x s.dig = none)
        ∧ exec (.upd x) s = .next (s.raise .undefinedUse)) := by
  simp only [exec, execUpd]
  by_cases h : s.mode = .active
  · by_cases hc : s.dig.count.toNat = countLimit
    · exact .inr ⟨.inr (.inl hc), by simp [h, hc]⟩
    · cases hd : absorb s.cfg x s.dig with
      | none => exact .inr ⟨.inr (.inr rfl), by simp [h, hc]⟩
      | some d => exact .inl ⟨h, hc, d, rfl, by simp [h, hc]⟩
  · exact .inr ⟨.inl h, by simp [h]⟩

/-- The state FIN leaves before it answers (rules R172, R182). -/
def State.finalized (s : State) : State :=
  { s with
    dv := finalize s.cfg s.dig
    dvValid := true
    mode := .spent
    dig := freeDigester s.freeDraws
    freeDraws := s.freeDraws + 1 }

/-- Everything FIN can do (rule R172). -/
theorem execFin_cases (s : State) :
    (s.mode = .active ∧ exec .fin s = .next (s.finalized.respond []))
      ∨ (s.mode ≠ .active ∧ exec .fin s = .next (s.raise .undefinedUse)) := by
  simp only [exec, execFin]
  by_cases h : s.mode = .active
  · exact .inl ⟨h, by simp [h, State.finalized]⟩
  · exact .inr ⟨h, by simp [h]⟩

/-- Everything PACK can do (rule R200). -/
theorem execPack_cases (s : State) :
    (s.dvValid = true ∧ exec .pack s = .next (s.respond (lenPrefixed (packBytes s.dv))))
      ∨ (s.dvValid = false ∧ exec .pack s = .next (s.raise .undefinedUse)) := by
  simp only [exec, execPack]
  cases h : s.dvValid <;> simp

/-- Everything UNPACK can do (rule R201). -/
theorem execUnpack_cases (B : List Byte) (s : State) :
    (∃ D, unpackBytes B = some D
        ∧ exec (.unpack B) s = .next (({ s with dv := D, dvValid := true } : State).respond []))
      ∨ (unpackBytes B = none ∧ exec (.unpack B) s = .next (s.raise .badFormat)) := by
  simp only [exec, execUnpack]
  rcases loadDigest_cases s (unpackBytes B) with ⟨h, e⟩ | ⟨D, h, e⟩
  · exact .inr ⟨h, by rw [e]; rfl⟩
  · exact .inl ⟨D, h, by rw [e]; rfl⟩

/-- Everything PARSE can do (rule R205). -/
theorem execParse_cases (S : List Byte) (s : State) :
    (∃ D, parseDigest s.build.hexLowerOk S = some D
        ∧ exec (.parse S) s = .next (({ s with dv := D, dvValid := true } : State).respond []))
      ∨ (parseDigest s.build.hexLowerOk S = none
        ∧ exec (.parse S) s = .next (s.raise .badFormat)) := by
  simp only [exec, execParse]
  rcases loadDigest_cases s (parseDigest s.build.hexLowerOk S) with ⟨h, e⟩ | ⟨D, h, e⟩
  · exact .inr ⟨h, by rw [e]; rfl⟩
  · exact .inl ⟨D, h, by rw [e]; rfl⟩

/-- Everything UNHEX can do (rule R204). -/
theorem execUnhex_cases (S : List Byte) (s : State) :
    (∃ B, hexDec s.build.hexLowerOk S = some B
        ∧ exec (.unhex S) s = .next (s.respond (lenPrefixed B)))
      ∨ (hexDec s.build.hexLowerOk S = none ∧ exec (.unhex S) s = .next (s.raise .badFormat)) := by
  simp only [exec, execUnhex]
  cases h : hexDec s.build.hexLowerOk S with
  | none => exact .inr ⟨rfl, rfl⟩
  | some B => exact .inl ⟨B, rfl, rfl⟩

/-- Everything SCORE can do (rule R237). -/
theorem execScore_cases (A B : List Byte) (l : Bool) (s : State) :
    (∃ n, scorePacked A B l = .ok n
        ∧ exec (.score A B l) s = .next (s.respond (i32Result (BitVec.ofNat 32 n))))
      ∨ (∃ k, k ≠ .ok ∧ scorePacked A B l = .error k
        ∧ exec (.score A B l) s = .next (s.raise k)) := by
  simp only [exec, execScore]
  cases h : scorePacked A B l with
  | ok n => exact .inl ⟨n, rfl, rfl⟩
  | error k =>
    refine .inr ⟨k, ?_, rfl, rfl⟩
    unfold scorePacked at h
    split at h
    · cases h; simp
    · split at h
      · cases h; simp
      · split at h <;> cases h
        simp

theorem exec_hex (B : List Byte) (s : State) :
    exec (.hex B) s = .next (s.respond (lenPrefixed (hexEnc B))) := rfl

theorem exec_hext1 (B : List Byte) (s : State) :
    exec (.hext1 B) s = .next (s.respond (lenPrefixed (tagT1 ++ hexEnc B))) := rfl

theorem exec_lcap (v : U64) (s : State) :
    exec (.lcap v) s = .next (s.respond [lCapturing v]) := rfl

theorem exec_phash (X : List Byte) (s : State) :
    exec (.phash X) s = .next (s.respond [hashSeq X]) := rfl

/-- Everything a command built on an inspection read can do (rule R250). -/
theorem complete_inspect_cases (s : State) (result : List Byte) :
    (s.build.debugEn = false ∧ complete s (inspect s result) = .next (s.raise .badRequest))
      ∨ (s.build.debugEn = true ∧ s.mode ≠ .active
        ∧ complete s (inspect s result) = .next (s.raise .undefinedUse))
      ∨ (s.build.debugEn = true ∧ s.mode = .active
        ∧ complete s (inspect s result) = .next (s.respond result)) := by
  rcases inspect_cases s result with ⟨h, e⟩ | ⟨h, h', e⟩ | ⟨h, h', e⟩
  · exact .inl ⟨h, by rw [e]; rfl⟩
  · exact .inr (.inl ⟨h, h', by rw [e]; rfl⟩)
  · exact .inr (.inr ⟨h, h', by rw [e]; rfl⟩)

theorem exec_dbgb (i : Byte) (s : State) :
    exec (.dbgb i) s = complete s (inspect s (u64Result s.dig.bucket[i.toNat])) := rfl

theorem exec_dbgc (s : State) :
    exec .dbgc s
      = complete s (inspect s (lenPrefixed (s.dig.checksum.toList.take s.cfg.c))) := rfl

theorem exec_dbgn (s : State) :
    exec .dbgn s = complete s (inspect s (u64Result s.dig.count)) := rfl

theorem exec_dbgl (s : State) :
    exec .dbgl s
      = complete s (inspect s (lenPrefixed (s.dig.lag.toList.take (s.cfg.w - 1)))) := rfl

/-- Everything any command can do to the state, by the kind of its effect: an error status; a result with
nothing written; or one of the five writing commands. -/
theorem exec_effect {i : Instr} {s t : State} (h : exec i s = .next t) :
    (∃ k, k ≠ .ok ∧ t = s.raise k)
      ∨ (∃ result, t = s.respond result)
      ∨ (∃ w c b g, i = .cfg w c b ∧ cfgTriple w c b = some g
          ∧ t = ({ s with cfg := g } : State).emptied.respond [])
      ∨ (i = .rst ∧ s.mode ≠ .unconf ∧ t = s.emptied.respond [])
      ∨ (∃ x d, i = .upd x ∧ s.mode = .active ∧ s.dig.count.toNat ≠ countLimit
          ∧ absorb s.cfg x s.dig = some d ∧ t = ({ s with dig := d } : State).respond [])
      ∨ (i = .fin ∧ s.mode = .active ∧ t = s.finalized.respond [])
      ∨ (∃ D, ((∃ B, i = .unpack B ∧ unpackBytes B = some D)
            ∨ (∃ S, i = .parse S ∧ parseDigest s.build.hexLowerOk S = some D))
          ∧ t = ({ s with dv := D, dvValid := true } : State).respond []) := by
  have inj : ∀ {u : State}, exec i s = .next u → t = u := fun e => by
    rw [h] at e
    simpa using e
  have read : ∀ {result : List Byte}, exec i s = complete s (inspect s result) →
      (∃ k, k ≠ .ok ∧ t = s.raise k) ∨ (∃ result, t = s.respond result) := fun {result} e => by
    rcases complete_inspect_cases s result with ⟨_, e'⟩ | ⟨_, _, e'⟩ | ⟨_, _, e'⟩
    · exact .inl ⟨_, by simp, inj (e.trans e')⟩
    · exact .inl ⟨_, by simp, inj (e.trans e')⟩
    · exact .inr ⟨_, inj (e.trans e')⟩
  cases i with
  | cfg w c b =>
    rcases execCfg_cases w c b s with ⟨g, hg, e⟩ | ⟨_, e⟩
    · exact .inr (.inr (.inl ⟨w, c, b, g, rfl, hg, inj e⟩))
    · exact .inl ⟨_, by simp, inj e⟩
  | upd x =>
    rcases execUpd_cases x s with ⟨hm, hc, d, hd, e⟩ | ⟨_, e⟩
    · exact .inr (.inr (.inr (.inr (.inl ⟨x, d, rfl, hm, hc, hd, inj e⟩))))
    · exact .inl ⟨_, by simp, inj e⟩
  | rst =>
    rcases execRst_cases s with ⟨hm, e⟩ | ⟨_, e⟩
    · exact .inr (.inr (.inr (.inl ⟨rfl, hm, inj e⟩)))
    · exact .inl ⟨_, by simp, inj e⟩
  | fin =>
    rcases execFin_cases s with ⟨hm, e⟩ | ⟨_, e⟩
    · exact .inr (.inr (.inr (.inr (.inr (.inl ⟨rfl, hm, inj e⟩)))))
    · exact .inl ⟨_, by simp, inj e⟩
  | pack =>
    rcases execPack_cases s with ⟨_, e⟩ | ⟨_, e⟩
    · exact .inr (.inl ⟨_, inj e⟩)
    · exact .inl ⟨_, by simp, inj e⟩
  | unpack B =>
    rcases execUnpack_cases B s with ⟨D, hD, e⟩ | ⟨_, e⟩
    · exact .inr (.inr (.inr (.inr (.inr (.inr ⟨D, .inl ⟨B, rfl, hD⟩, inj e⟩)))))
    · exact .inl ⟨_, by simp, inj e⟩
  | hex B => exact .inr (.inl ⟨_, inj (exec_hex B s)⟩)
  | hext1 B => exact .inr (.inl ⟨_, inj (exec_hext1 B s)⟩)
  | unhex S =>
    rcases execUnhex_cases S s with ⟨_, _, e⟩ | ⟨_, e⟩
    · exact .inr (.inl ⟨_, inj e⟩)
    · exact .inl ⟨_, by simp, inj e⟩
  | score A B l =>
    rcases execScore_cases A B l s with ⟨_, _, e⟩ | ⟨k, hk, _, e⟩
    · exact .inr (.inl ⟨_, inj e⟩)
    · exact .inl ⟨k, hk, inj e⟩
  | parse S =>
    rcases execParse_cases S s with ⟨D, hD, e⟩ | ⟨_, e⟩
    · exact .inr (.inr (.inr (.inr (.inr (.inr ⟨D, .inr ⟨S, rfl, hD⟩, inj e⟩)))))
    · exact .inl ⟨_, by simp, inj e⟩
  | lcap v => exact .inr (.inl ⟨_, inj (exec_lcap v s)⟩)
  | phash X => exact .inr (.inl ⟨_, inj (exec_phash X s)⟩)
  | dbgb j => exact (read (exec_dbgb j s)).imp_right .inl
  | dbgc => exact (read (exec_dbgc s)).imp_right .inl
  | dbgn => exact (read (exec_dbgn s)).imp_right .inl
  | dbgl => exact (read (exec_dbgl s)).imp_right .inl

end Sys2Proof.Machine
end

