-- ==== Sys2Proof/Laws/Codec.lean ====
section
/-! SUPPORT. The data formats: nibbles, the packed digest and hex text. -/

namespace Sys2Proof.Machine

/-! ### Nibbles -/

@[simp] theorem highNibble_byteOfNibbles (h l : Nibble) : highNibble (byteOfNibbles h l) = h := by
  revert h l
  decide

@[simp] theorem lowNibble_byteOfNibbles (h l : Nibble) : lowNibble (byteOfNibbles h l) = l := by
  revert h l
  decide

@[simp] theorem byteOfNibbles_nibbles (v : Byte) :
    byteOfNibbles (highNibble v) (lowNibble v) = v := by
  revert v
  decide

/-- `swap(swap(v)) = v` (rule R14). -/
@[simp] theorem swap_swap (v : Byte) : swap (swap v) = v := by
  simp [swap]

/-- Exchanging the nibbles is rotating by four. -/
theorem swap_eq_rotateLeft (v : Byte) : swap v = v.rotateLeft 4 := by
  revert v
  decide

theorem map_swap_map_swap (B : List Byte) : (B.map swap).map swap = B := by
  simp [List.map_map, Function.comp_def]

/-! ### The packed digest -/

/-- The shapes of the five packed lengths (rule R111). -/
theorem packedShape_eq_some {L b c : Nat} (h : packedShape L = some (b, c)) :
    (L, b, c) ∈ [(15, 48, 1), (35, 128, 1), (37, 128, 3), (67, 256, 1), (69, 256, 3)] := by
  unfold packedShape at h
  split at h <;> simp at h <;> simp [h]

theorem packedShape_eq_none {L : Nat} :
    packedShape L = none ↔ L ∉ [15, 35, 37, 67, 69] := by
  unfold packedShape
  split <;> simp_all

/-- A length outside the five is not unpacked. -/
theorem unpackBytes_eq_none {B : List Byte} :
    unpackBytes B = none ↔ B.length ∉ [15, 35, 37, 67, 69] := by
  rw [← packedShape_eq_none]
  unfold unpackBytes
  split <;> simp_all

/-- What unpacking one of the five lengths gives (rule R201). -/
theorem unpackBytes_of_length {B : List Byte} {c : Nat}
    (h : (B.length, c) ∈ [(15, 1), (35, 1), (37, 3), (67, 1), (69, 3)]) :
    unpackBytes B
      = some
          { checksum := (B.take c).map swap
            lvalue := swap (B.getD c 0#8)
            q1 := highNibble (B.getD (c + 1) 0#8)
            q2 := lowNibble (B.getD (c + 1) 0#8)
            body := (B.drop (c + 2)).reverse } := by
  simp only [List.mem_cons, Prod.mk.injEq, List.not_mem_nil, or_false] at h
  unfold unpackBytes
  rcases h with ⟨h, rfl⟩ | ⟨h, rfl⟩ | ⟨h, rfl⟩ | ⟨h, rfl⟩ | ⟨h, rfl⟩ <;> rw [h] <;> rfl

/-- Every length that unpacks has its checksum length. -/
theorem exists_checksum_length {L : Nat} (h : L ∈ [15, 35, 37, 67, 69]) :
    ∃ c, (L, c) ∈ [(15, 1), (35, 1), (37, 3), (67, 1), (69, 3)] := by
  simp only [List.mem_cons, List.not_mem_nil, or_false] at h
  rcases h with rfl | rfl | rfl | rfl | rfl
  · exact ⟨1, by simp⟩
  · exact ⟨1, by simp⟩
  · exact ⟨3, by simp⟩
  · exact ⟨1, by simp⟩
  · exact ⟨3, by simp⟩

/-- The length of the packed form (rule R110). -/
theorem packBytes_length (D : DigestValue) :
    (packBytes D).length = D.checksum.length + 2 + D.body.length := by
  simp [packBytes]
  omega

/-! ### Hex text -/

@[simp] theorem hexEnc_nil : hexEnc [] = [] := rfl

@[simp] theorem hexEnc_cons (v : Byte) (B : List Byte) :
    hexEnc (v :: B) = hexDigit (highNibble v) :: hexDigit (lowNibble v) :: hexEnc B := by
  simp [hexEnc]

@[simp] theorem hexEnc_length (B : List Byte) : (hexEnc B).length = 2 * B.length := by
  induction B with
  | nil => rfl
  | cons v B ih => simp [ih]; omega

/-- A hex digit decodes to its nibble in every build. -/
@[simp] theorem hexVal_hexDigit (lowerOk : Bool) (n : Nibble) :
    hexVal lowerOk (hexDigit n) = some n := by
  revert lowerOk n
  decide

/-- One more pair of hex characters. -/
theorem hexDec_cons {lowerOk : Bool} {c1 c2 : Byte} {S B : List Byte} {h l : Nibble}
    (h1 : hexVal lowerOk c1 = some h) (h2 : hexVal lowerOk c2 = some l)
    (h3 : hexDec lowerOk S = some B) :
    hexDec lowerOk (c1 :: c2 :: S) = some (byteOfNibbles h l :: B) := by
  simp [hexDec, h1, h2, h3]

/-- Induction over a text two characters at a time. -/
theorem pair_induction {motive : List Byte → Prop} (nil : motive []) (one : ∀ c, motive [c])
    (pair : ∀ c1 c2 S, motive S → motive (c1 :: c2 :: S)) : ∀ S, motive S
  | [] => nil
  | [c] => one c
  | c1 :: c2 :: S => pair c1 c2 S (pair_induction nil one pair S)

/-- Everything hex decoding can be: a text that decodes has two characters for each byte, and each pair
spells its byte (rule R122). -/
theorem hexDec_eq_some {lowerOk : Bool} {S B : List Byte} :
    hexDec lowerOk S = some B
      ↔ S.length = 2 * B.length
        ∧ ∀ n, n < B.length →
            hexVal lowerOk (S.getD (2 * n) 0#8) = some (highNibble (B.getD n 0#8))
            ∧ hexVal lowerOk (S.getD (2 * n + 1) 0#8) = some (lowNibble (B.getD n 0#8)) := by
  induction S using pair_induction generalizing B with
  | nil =>
    constructor
    · intro h
      obtain rfl : [] = B := by simpa [hexDec] using h
      simp
    · rintro ⟨h, -⟩
      have : B = [] := by
        apply List.eq_nil_of_length_eq_zero
        rw [List.length_nil] at h
        omega
      simp [hexDec, this]
  | one c =>
    constructor
    · intro h
      simp [hexDec] at h
    · rintro ⟨h, -⟩
      simp only [List.length_cons, List.length_nil] at h
      omega
  | pair c1 c2 S ih =>
    constructor
    · intro h
      unfold hexDec at h
      split at h
      · next hh ll B' e1 e2 e3 =>
        obtain rfl : byteOfNibbles hh ll :: B' = B := by simpa using h
        obtain ⟨hlen, hpairs⟩ := ih.mp e3
        refine ⟨by simp [hlen]; omega, ?_⟩
        rintro (_ | n) hn
        · simp [e1, e2]
        · have := hpairs n (by simpa using hn)
          simpa [Nat.mul_add] using this
      · cases h
    · rintro ⟨hlen, hpairs⟩
      rcases B with _ | ⟨v, B⟩
      · simp at hlen
      · have h0 := hpairs 0 (by simp)
        simp only [List.getD_cons_zero, Nat.mul_zero, Nat.zero_add, List.getD_cons_succ] at h0
        have hS : hexDec lowerOk S = some B := by
          apply ih.mpr
          refine ⟨by simp at hlen; omega, fun n hn => ?_⟩
          have := hpairs (n + 1) (by simpa using hn)
          simpa [Nat.mul_add] using this
        rw [hexDec_cons h0.1 h0.2 hS, byteOfNibbles_nibbles]

/-- Hex text decodes to the bytes it was made of (rule R206 item 2). -/
theorem hexDec_hexEnc (lowerOk : Bool) (B : List Byte) : hexDec lowerOk (hexEnc B) = some B := by
  induction B with
  | nil => rfl
  | cons v B ih => rw [hexEnc_cons, hexDec_cons (hexVal_hexDigit _ _) (hexVal_hexDigit _ _) ih, byteOfNibbles_nibbles]

/-- Every character of a text that decodes is a hex digit of this build. -/
theorem hexVal_of_mem {lowerOk : Bool} {S B : List Byte} (h : hexDec lowerOk S = some B)
    {ch : Byte} (hch : ch ∈ S) : ∃ n, hexVal lowerOk ch = some n := by
  induction S using pair_induction generalizing B with
  | nil => simp at hch
  | one c => simp [hexDec] at h
  | pair c1 c2 S ih =>
    unfold hexDec at h
    split at h
    · next hh ll B' e1 e2 e3 =>
      simp only [List.mem_cons] at hch
      rcases hch with rfl | rfl | hch
      · exact ⟨_, e1⟩
      · exact ⟨_, e2⟩
      · exact ih e3 hch
    · cases h

/-- The characters that are no hex digit of a build (rule R122). -/
theorem hexVal_eq_none {lowerOk : Bool} {ch : Byte} :
    hexVal lowerOk ch = none
      ↔ ¬(0x30 ≤ ch.toNat ∧ ch.toNat ≤ 0x39) ∧ ¬(0x41 ≤ ch.toNat ∧ ch.toNat ≤ 0x46)
        ∧ ¬(lowerOk = true ∧ 0x61 ≤ ch.toNat ∧ ch.toNat ≤ 0x66) := by
  unfold hexVal
  split_ifs <;> simp_all

/-- The letter `T` is no hex digit, so the tag is told from the text by its first character. -/
theorem hexVal_T (lowerOk : Bool) : hexVal lowerOk 0x54#8 = none := by
  revert lowerOk
  decide

/-- A text that decodes has no tag to strip. -/
theorem stripTag_of_hexDec {lowerOk : Bool} {S B : List Byte} (h : hexDec lowerOk S = some B) :
    stripTag S = S := by
  unfold stripTag
  split
  · next c1 c2 S' =>
    split_ifs with hT
    · obtain ⟨n, hn⟩ := hexVal_of_mem h (ch := c1) (by simp)
      rw [hT.1, hexVal_T] at hn
      cases hn
    · rfl
  · rfl

@[simp] theorem stripTag_tagged (S : List Byte) : stripTag (0x54#8 :: 0x31#8 :: S) = S := by
  simp [stripTag]

/-- What PARSE decodes, said by the first two characters (rule R205). -/
theorem stripTag_eq (S : List Byte) :
    stripTag S = if S.take 2 = [0x54#8, 0x31#8] then S.drop 2 else S := by
  rcases S with _ | ⟨c1, _ | ⟨c2, S⟩⟩ <;> simp [stripTag]

end Sys2Proof.Machine
end

