-- ==== Sys2Proof/Laws/Digester.lean ====
section
/-! SUPPORT. The accumulator: increments, one absorbed byte, and the order statistics of FIN. -/

namespace Sys2Proof.Machine

/-- Everything one increment can do (rules R167, R170). -/
theorem increment_eq_some {bucket bucket' : Vector U64 256} {i : Byte} :
    increment bucket i = some bucket'
      ↔ bucket[i.toNat] ≠ BitVec.allOnes 64
        ∧ bucket' = bucket.set i.toNat (bucket[i.toNat] + 1#64) := by
  unfold increment
  by_cases h : bucket[i.toNat] = BitVec.allOnes 64
  · rw [if_pos h]
    exact ⟨fun e => (by cases e), fun e => absurd h e.1⟩
  · rw [if_neg h]
    exact ⟨fun e => ⟨h, (Option.some.inj e).symm⟩, fun e => by rw [e.2]⟩

theorem toNat_add_one {v : U64} (h : v ≠ BitVec.allOnes 64) : (v + 1#64).toNat = v.toNat + 1 := by
  have hne : v.toNat ≠ 2 ^ 64 - 1 := fun e =>
    h (BitVec.eq_of_toNat_eq (by rw [BitVec.toNat_allOnes]; exact e))
  have hlt := v.isLt
  rw [BitVec.toNat_add]
  simp only [BitVec.toNat_ofNat]
  omega

/-- One increment adds 1 to the selected counter and leaves the others. -/
theorem increment_getElem {bucket bucket' : Vector U64 256} {i : Byte}
    (h : increment bucket i = some bucket') (k : Nat) (hk : k < 256) :
    bucket'[k].toNat = bucket[k].toNat + if i.toNat = k then 1 else 0 := by
  obtain ⟨hne, rfl⟩ := increment_eq_some.mp h
  rw [Vector.getElem_set]
  split_ifs with e
  · subst e
    exact toNat_add_one hne
  · rfl

/-- The increments of one byte add to each counter the number of times it is selected (rules R69,
R296). -/
theorem incrementAll_getElem {bucket bucket' : Vector U64 256} {is : List Byte}
    (h : incrementAll bucket is = some bucket') (k : Nat) (hk : k < 256) :
    bucket'[k].toNat = bucket[k].toNat + is.countP (fun i => decide (i.toNat = k)) := by
  induction is generalizing bucket with
  | nil =>
    obtain rfl : bucket = bucket' := by simpa [incrementAll] using h
    simp
  | cons i is ih =>
    unfold incrementAll at h
    split at h
    · cases h
    · next b1 h1 =>
      rw [ih h, increment_getElem h1 k hk, List.countP_cons]
      simp only [decide_eq_true_eq]
      omega

/-- The increments of one byte fail exactly where some counter would pass its limit (rule R170). -/
theorem incrementAll_eq_none {bucket : Vector U64 256} {is : List Byte} :
    incrementAll bucket is = none
      ↔ ∃ k, ∃ _ : k < 256,
          2 ^ 64 ≤ bucket[k].toNat + is.countP (fun i => decide (i.toNat = k)) := by
  induction is generalizing bucket with
  | nil =>
    constructor
    · intro h
      simp [incrementAll] at h
    · rintro ⟨k, hk, h⟩
      have := bucket[k].isLt
      simp only [List.countP_nil] at h
      omega
  | cons i is ih =>
    unfold incrementAll
    cases h1 : increment bucket i with
    | none =>
      simp only [true_iff]
      refine ⟨i.toNat, i.isLt, ?_⟩
      have he : bucket[i.toNat] = BitVec.allOnes 64 := by
        by_contra hne
        rw [increment, if_neg hne] at h1
        cases h1
      rw [he, BitVec.toNat_allOnes, List.countP_cons]
      simp
      omega
    | some b1 =>
      simp only
      rw [ih]
      constructor
      · rintro ⟨k, hk, h⟩
        refine ⟨k, hk, ?_⟩
        rw [increment_getElem h1 k hk] at h
        rw [List.countP_cons]
        simp only [decide_eq_true_eq]
        omega
      · rintro ⟨k, hk, h⟩
        refine ⟨k, hk, ?_⟩
        rw [increment_getElem h1 k hk]
        rw [List.countP_cons] at h
        simp only [decide_eq_true_eq] at h
        omega

/-- Everything absorbing a byte can do (rule R162). -/
theorem absorb_cases (g : Cfg) (x : Byte) (d : Digester) :
    (g.w ≤ d.count.toNat + 1 ∧ incrementAll d.bucket (bucketIndices g.w x d.lag) = none
        ∧ absorb g x d = none)
      ∨ (g.w ≤ d.count.toNat + 1
        ∧ ∃ bucket', incrementAll d.bucket (bucketIndices g.w x d.lag) = some bucket'
          ∧ absorb g x d
            = some
                { lag := shiftLag x d.lag
                  checksum := nextChecksum g.c x d.lag[0] d.checksum
                  bucket := bucket'
                  count := d.count + 1#64 })
      ∨ (d.count.toNat + 1 < g.w
        ∧ absorb g x d = some { d with lag := shiftLag x d.lag, count := d.count + 1#64 }) := by
  unfold absorb
  by_cases h : g.w ≤ d.count.toNat + 1
  · rw [if_pos h]
    cases hb : incrementAll d.bucket (bucketIndices g.w x d.lag) with
    | none => exact .inl ⟨h, rfl, rfl⟩
    | some b => exact .inr (.inl ⟨h, b, rfl, rfl⟩)
  · rw [if_neg h]
    exact .inr (.inr ⟨by omega, rfl⟩)

/-- The number of increments of a running byte is `N(w)` (rule R167). -/
theorem bucketIndices_length (w : Nat) (x : Byte) (lag : Vector Byte 7) :
    (bucketIndices w x lag).length = pairCount w := by
  rw [bucketIndices, List.length_map, List.length_take]
  unfold pairCount
  split <;> simp [pairTable]

/-- Two sorted arrangements of the same numbers are equal, so any way of sorting serves (rule R173). -/
theorem sortAsc_unique {S X : List Nat} (h : S.Pairwise (· ≤ ·)) (hp : S.Perm X) : sortAsc X = S := by
  refine List.Perm.eq_of_pairwise' (r := (· ≤ ·)) (List.pairwise_insertionSort _ X) h ?_
  exact (List.perm_insertionSort _ X).trans hp.symm

theorem sortAsc_pairwise (X : List Nat) : (sortAsc X).Pairwise (· ≤ ·) :=
  List.pairwise_insertionSort _ X

theorem sortAsc_length (X : List Nat) : (sortAsc X).length = X.length :=
  List.length_insertionSort _ X

theorem counters_length {b : Nat} (bucket : Vector U64 256) (h : b ≤ 256) :
    (counters b bucket).length = b := by
  simp [counters]
  exact h

end Sys2Proof.Machine
end

