-- ==== Sys2Proof/Laws/PerInstr.lean ====
section
/-! SUPPORT. A statement made of every command of the opcode table, one lemma each: the first byte of its
request and the length of its request (30_encoding.md rules R103, R104). -/

namespace Sys2Proof.Laws.RequestShape

/-- The opcode byte the table of rule R104 gives the command. -/
def opcode : Instr → Byte
  | .cfg _ _ _ => 0x01#8
  | .upd _ => 0x02#8
  | .rst => 0x03#8
  | .fin => 0x04#8
  | .pack => 0x05#8
  | .unpack _ => 0x06#8
  | .hex _ => 0x07#8
  | .hext1 _ => 0x08#8
  | .unhex _ => 0x09#8
  | .score _ _ _ => 0x0A#8
  | .parse _ => 0x0B#8
  | .lcap _ => 0x0C#8
  | .phash _ => 0x0D#8
  | .dbgb _ => 0x10#8
  | .dbgc => 0x11#8
  | .dbgn => 0x12#8
  | .dbgl => 0x13#8

/-- The length in bytes the formats of rule R103 give the request: F0 1, F1 2, FV `3 + LEN`, FQ 9, FS
`6 + LENA + LENB`. -/
def total : Instr → Nat
  | .cfg _ _ _ => 2
  | .upd _ => 2
  | .rst => 1
  | .fin => 1
  | .pack => 1
  | .unpack B => 3 + B.length
  | .hex B => 3 + B.length
  | .hext1 B => 3 + B.length
  | .unhex S => 3 + S.length
  | .score A B _ => 6 + A.length + B.length
  | .parse S => 3 + S.length
  | .lcap _ => 9
  | .phash X => 3 + X.length
  | .dbgb _ => 2
  | .dbgc => 1
  | .dbgn => 1
  | .dbgl => 1

/-- The request of a command begins with its opcode and is as long as its format says. -/
def Statement (i : Instr) : Prop :=
  (encode i).head? = some (opcode i) ∧ (encode i).length = total i

theorem lenPrefixed_length (X : List Byte) : (lenPrefixed X).length = 2 + X.length := by
  simp only [lenPrefixed, beBytes, List.length_append, List.length_cons, List.length_nil]

theorem request_length (op : Byte) (X : List Byte) :
    (op :: lenPrefixed X).length = 3 + X.length := by
  rw [List.length_cons, lenPrefixed_length]
  omega

theorem cfg (wraw : BitVec 4) (craw bsel : BitVec 2) : Statement (.cfg wraw craw bsel) := ⟨rfl, rfl⟩
theorem upd (x : Byte) : Statement (.upd x) := ⟨rfl, rfl⟩
theorem rst : Statement .rst := ⟨rfl, rfl⟩
theorem fin : Statement .fin := ⟨rfl, rfl⟩
theorem pack : Statement .pack := ⟨rfl, rfl⟩
theorem unpack (B : List Byte) : Statement (.unpack B) := ⟨rfl, request_length _ B⟩
theorem hex (B : List Byte) : Statement (.hex B) := ⟨rfl, request_length _ B⟩
theorem hext1 (B : List Byte) : Statement (.hext1 B) := ⟨rfl, request_length _ B⟩
theorem unhex (S : List Byte) : Statement (.unhex S) := ⟨rfl, request_length _ S⟩
theorem score (A B : List Byte) (includeLength : Bool) : Statement (.score A B includeLength) := by
  refine ⟨rfl, ?_⟩
  simp only [encode, total, List.length_cons, List.length_append, lenPrefixed_length]
  omega
theorem parse (S : List Byte) : Statement (.parse S) := ⟨rfl, request_length _ S⟩
theorem lcap (v : U64) : Statement (.lcap v) := ⟨rfl, rfl⟩
theorem phash (X : List Byte) : Statement (.phash X) := ⟨rfl, request_length _ X⟩
theorem dbgb (i : Byte) : Statement (.dbgb i) := ⟨rfl, rfl⟩
theorem dbgc : Statement .dbgc := ⟨rfl, rfl⟩
theorem dbgn : Statement .dbgn := ⟨rfl, rfl⟩
theorem dbgl : Statement .dbgl := ⟨rfl, rfl⟩

end Sys2Proof.Laws.RequestShape
end

