-- ==== Sys2Proof/Laws/Quantizer.lean ====
section
/-! SUPPORT. The threshold table and the search for the length code. -/

namespace Sys2Proof.Machine

/-- What the check of a threshold table says (rule R151). -/
theorem topvalOk_spec {t : Nat → U64} (h : topvalOk t = true) :
    t 0 = 1#64 ∧ t 255 = BitVec.allOnes 64 ∧ (∀ i, i < 255 → t i < t (i + 1))
      ∧ (t 5 < 12#64 ∧ 12#64 ≤ t 6) ∧ (t 6 < 19#64 ∧ 19#64 ≤ t 7)
      ∧ (t 52 < 65536#64 ∧ 65536#64 ≤ t 53) := by
  simp only [topvalOk, Bool.and_eq_true, decide_eq_true_eq, List.all_eq_true, List.mem_range] at h
  obtain ⟨⟨⟨⟨⟨h0, h255⟩, hmono⟩, h5⟩, h6⟩, h52⟩ := h
  exact ⟨h0, h255, hmono, h5, h6, h52⟩

/-- The stand-in table meets the constraints. -/
theorem topvalOk_standIn : topvalOk topvalStandIn = true := by decide +kernel

/-- A strictly rising table rises between any two of its indices. -/
theorem lt_of_rising {t : Nat → U64} (hmono : ∀ i, i < 255 → t i < t (i + 1)) :
    ∀ {i j : Nat}, i < j → j ≤ 255 → t i < t j := by
  intro i j hij
  induction j with
  | zero => omega
  | succ j ih =>
    intro hj
    rcases Nat.lt_succ_iff_lt_or_eq.mp hij with h | rfl
    · exact BitVec.lt_trans (ih h (by omega)) (hmono j (by omega))
    · exact hmono i (by omega)

/-- The search stops at the first index that reaches the length (rule R152). -/
theorem firstReaching_spec {t : Nat → U64} {len : U64} (fuel i : Nat) (h : len ≤ t (i + fuel)) :
    i ≤ firstReaching t len fuel i ∧ firstReaching t len fuel i ≤ i + fuel
      ∧ len ≤ t (firstReaching t len fuel i)
      ∧ ∀ j, i ≤ j → j < firstReaching t len fuel i → t j < len := by
  induction fuel generalizing i with
  | zero => exact ⟨le_rfl, le_rfl, h, fun j h1 h2 => absurd h2 (by simp only [firstReaching]; omega)⟩
  | succ fuel ih =>
    rw [firstReaching]
    split_ifs with hi
    · exact ⟨le_rfl, by omega, hi, fun j h1 h2 => by omega⟩
    · obtain ⟨h1, h2, h3, h4⟩ := ih (i + 1) (by rwa [show i + 1 + fuel = i + (fuel + 1) by ring])
      refine ⟨by omega, by omega, h3, fun j hj hlt => ?_⟩
      rcases Nat.eq_or_lt_of_le hj with rfl | hj
      · exact BitVec.not_le.mp hi
      · exact h4 j (by omega) hlt

end Sys2Proof.Machine
end

