-- ==== Sys2Proof/Laws/Stream.lean ====
section
/-! SUPPORT. Whole streams: runs of commands one after another, and what one more byte does to the closed
form of a stream. -/

namespace Sys2Proof.Machine

/-- A run of `A` and then `B` is a run of `B` from where `A` ends. -/
theorem runCommands_append (A B : List Instr) (s : State) :
    runCommands (A ++ B) s
      = match runCommands A s with
        | .next t => runCommands B t
        | .fault r => .fault r
        | .refused r => .refused r := by
  induction A generalizing s with
  | nil => rfl
  | cons i A ih =>
    simp only [List.cons_append, runCommands]
    cases exec i s with
    | next t => exact ih t
    | fault r => rfl
    | refused r => rfl

/-- The hits of one byte are the times its indices name the bucket (rule R167). -/
theorem bucketHits_eq_countP (g : Cfg) (x : Byte) (lag : Vector Byte 7) (k : Nat) :
    bucketHits g x lag k = (bucketIndices g.w x lag).countP (fun i => decide (i.toNat = k)) := by
  rw [bucketIndices, List.countP_map]
  rfl

/-- One more byte shifts the lag of a stream (rule R169). -/
theorem streamLag_append_singleton (xs : List Byte) (x : Byte) :
    streamLag (xs ++ [x]) = shiftLag x (streamLag xs) := by
  ext j hj
  simp only [streamLag, shiftLag, Vector.getElem_ofFn, List.reverse_append, List.reverse_singleton,
    List.singleton_append]
  interval_cases j <;> simp

/-- One more byte adds its own hits where it is a running byte, and nothing in warm-up (rules R163,
R164). -/
theorem streamHits_append_singleton (g : Cfg) (xs : List Byte) (x : Byte) (k : Nat) :
    streamHits g (xs ++ [x]) k
      = streamHits g xs k
        + if g.w ≤ xs.length + 1 then bucketHits g x (streamLag xs) k else 0 := by
  unfold streamHits
  rw [List.length_append, List.length_singleton, List.range_succ, List.filter_append,
    List.map_append, List.sum_append]
  congr 1
  · congr 1
    apply List.map_congr_left
    intro n hn
    have hn : n < xs.length := List.mem_range.mp (List.mem_filter.mp hn).1
    rw [List.take_append_of_le_length (by omega), List.getD_append _ _ _ _ hn]
  · by_cases h : g.w ≤ xs.length + 1 <;> simp [h]

end Sys2Proof.Machine
end

