-- ==== Sys2Proof/Tests/Slice0.lean ====
section
/-! SUPPORT. Tests of the model on one step each, every expected value from 95_test_vectors.md or written
out from the rule named, and a witness for the hypotheses of every statement that has some. -/

namespace Sys2Proof.Tests

open Sys2Proof.Machine

/-! ### Small states -/

/-- An absorbing instance with an empty digester, in a build with the inspection reads and without
lower-case hex digits. -/
def fresh (w b c : Nat) : State :=
  { State.reset with cfg := ⟨w, b, c⟩, mode := .active, build := ⟨true, false⟩ }

/-- An instance of a build where `a`..`f` are hex digits. -/
def lowerCase : State := { State.reset with build := ⟨false, true⟩ }

/-- The state after a command. -/
def after : Host.Outcome State Fault Refusal → State
  | .next t => t
  | .fault _ => State.reset
  | .refused _ => State.reset

/-- The response to one command. -/
def reply (i : Instr) (s : State) : List Byte := ((after (exec i s)).outbox.drop s.outbox.length).flatten

/-- Vector V10 before its fifth byte: `Hell` absorbed with `w = 5`. -/
def hell (c : Nat) : State :=
  { fresh 5 128 c with
    dig :=
      { emptyDigester with
        lag := #v[0x6C#8, 0x6C#8, 0x65#8, 0x48#8, 0#8, 0#8, 0#8]
        count := 4#64 } }

/-- A digester whose counters are the given numbers. -/
def histogram (f : Nat → Nat) : Digester :=
  { emptyDigester with bucket := Vector.ofFn fun i => BitVec.ofNat 64 (f i.val) }

/-! ### Ill-formed commands are refused (rules R102, R107 (e)) -/

theorem not_fitsLength {n : Nat} (h : 65535 < n) : fitsLength (List.replicate n 0#8) = false := by
  rw [fitsLength, List.length_replicate]
  exact decide_eq_false (by omega)

theorem not_fitsHexResult {n : Nat} (h : 32766 < n) :
    fitsHexResult (List.replicate n 0#8) = false := by
  rw [fitsHexResult, List.length_replicate]
  exact decide_eq_false (by omega)

theorem test_unpack_too_long : (Instr.unpack (List.replicate 65536 0#8)).wellFormed = false := by
  rw [Instr.wellFormed, not_fitsLength (by omega)]
theorem test_hex_too_long : (Instr.hex (List.replicate 32767 0#8)).wellFormed = false := by
  rw [Instr.wellFormed, not_fitsHexResult (by omega)]
theorem test_hext1_too_long : (Instr.hext1 (List.replicate 32767 0#8)).wellFormed = false := by
  rw [Instr.wellFormed, not_fitsHexResult (by omega)]
theorem test_unhex_too_long : (Instr.unhex (List.replicate 65536 0#8)).wellFormed = false := by
  rw [Instr.wellFormed, not_fitsLength (by omega)]
theorem test_parse_too_long : (Instr.parse (List.replicate 65536 0#8)).wellFormed = false := by
  rw [Instr.wellFormed, not_fitsLength (by omega)]
theorem test_phash_too_long : (Instr.phash (List.replicate 65536 0#8)).wellFormed = false := by
  rw [Instr.wellFormed, not_fitsLength (by omega)]
theorem test_score_too_long :
    (Instr.score (List.replicate 65536 0#8) [] true).wellFormed = false
      ∧ (Instr.score [] (List.replicate 65536 0#8) true).wellFormed = false := by
  rw [Instr.wellFormed, Instr.wellFormed, not_fitsLength (by omega), Bool.false_and, Bool.and_false]
  exact ⟨rfl, rfl⟩

/-! ### Every opcode, its request written out from rules R103 to R106 -/

theorem test_decode_cfg : decode [0x01#8, 0b10_11_1000#8] = .ok (.cfg 8#4 3#2 2#2) := by decide
theorem test_decode_upd : decode [0x02#8, 0x61#8] = .ok (.upd 0x61#8) := by decide
theorem test_decode_rst : decode [0x03#8] = .ok .rst := by decide
theorem test_decode_fin : decode [0x04#8] = .ok .fin := by decide
theorem test_decode_pack : decode [0x05#8] = .ok .pack := by decide
theorem test_decode_unpack : decode [0x06#8, 0x00#8, 0x02#8, 0x12#8, 0x34#8]
    = .ok (.unpack [0x12#8, 0x34#8]) := by decide
theorem test_decode_hex : decode [0x07#8, 0x00#8, 0x03#8, 0xDD#8, 0x60#8, 0x00#8]
    = .ok (.hex [0xDD#8, 0x60#8, 0x00#8]) := by decide
theorem test_decode_hext1 : decode [0x08#8, 0x00#8, 0x00#8] = .ok (.hext1 []) := by decide
theorem test_decode_unhex : decode [0x09#8, 0x00#8, 0x02#8, 0x44#8, 0x47#8]
    = .ok (.unhex [0x44#8, 0x47#8]) := by decide
theorem test_decode_score :
    decode [0x0A#8, 0x00#8, 0x00#8, 0x01#8, 0xAA#8, 0x00#8, 0x02#8, 0xBB#8, 0xCC#8]
      = .ok (.score [0xAA#8] [0xBB#8, 0xCC#8] false) := by decide
theorem test_decode_parse : decode [0x0B#8, 0x00#8, 0x02#8, 0x54#8, 0x31#8]
    = .ok (.parse [0x54#8, 0x31#8]) := by decide
theorem test_decode_lcap : decode [0x0C#8, 1#8, 2#8, 3#8, 4#8, 5#8, 6#8, 7#8, 8#8]
    = .ok (.lcap 0x0102030405060708#64) := by decide
theorem test_decode_phash : decode [0x0D#8, 0x00#8, 0x02#8, 0x48#8, 0x65#8]
    = .ok (.phash [0x48#8, 0x65#8]) := by decide
theorem test_decode_dbgb : decode [0x10#8, 0xDD#8] = .ok (.dbgb 0xDD#8) := by decide
theorem test_decode_dbgc : decode [0x11#8] = .ok .dbgc := by decide
theorem test_decode_dbgn : decode [0x12#8] = .ok .dbgn := by decide
theorem test_decode_dbgl : decode [0x13#8] = .ok .dbgl := by decide

/-- Vectors V27: requests that are malformed (rule R107, causes a to d). -/
theorem test_decode_malformed :
    decode [] = .error .emptyFrame
      ∧ decode [0x0E#8] = .error (.reservedOpcode 0x0E#8)
      ∧ decode [0x02#8, 0x01#8, 0x02#8] = .error .wrongSize
      ∧ decode [0x06#8, 0x00#8, 0x05#8, 0x01#8, 0x02#8] = .error .wrongSize
      ∧ decode [0x0A#8, 0x02#8, 0x00#8, 0x00#8, 0x00#8, 0x00#8] = .error .reservedFlags := by decide

/-- The opcode table's word of FIN and of UPD, the operand byte not given, as decoded requests. -/
theorem test_table_words :
    decodeTableWord 8 0x04 = some .fin ∧ decodeTableWord 8 0x02 = some (.upd 0#8)
      ∧ decodeTableWord 8 0x0C = some (.lcap 0#64) ∧ decodeTableWord 16 0x6102 = some (.upd 0x61#8) := by
  decide

/-! ### One step of each command -/

/-- Edge V8: `CFGB = 0x55` is TLSH-128-1/5. -/
theorem test_cfg_loads : (after (exec (.cfg 5#4 1#2 1#2) State.reset)).cfg = ⟨5, 128, 1⟩
    ∧ (after (exec (.cfg 5#4 1#2 1#2) State.reset)).mode = .active := by decide
/-- V27: 48 buckets with a 3-byte checksum, and `w = 3`, are InvalidParameter. -/
theorem test_cfg_rejects : reply (.cfg 5#4 3#2 0#2) State.reset = [0x01#8]
    ∧ reply (.cfg 3#4 1#2 1#2) State.reset = [0x01#8] := by decide

/-- V11: the checksum byte and the six buckets, in table order, of the first running byte. -/
theorem test_upd_running :
    (after (exec (.upd 0x6F#8) (hell 1))).dig.checksum.toList = [31#8, 0#8, 0#8]
      ∧ bucketIndices 5 0x6F#8 (hell 1).dig.lag = [221#8, 195#8, 188#8, 5#8, 26#8, 3#8]
      ∧ (after (exec (.upd 0x6F#8) (hell 1))).dig.bucket[221] = 1#64
      ∧ (after (exec (.upd 0x6F#8) (hell 1))).dig.lag.toList.take 5
          = [0x6F#8, 0x6C#8, 0x6C#8, 0x65#8, 0x48#8] := by decide +kernel
/-- V13: the 3-byte checksum after the same byte. -/
theorem test_upd_three_checksums :
    (after (exec (.upd 0x6F#8) (hell 3))).dig.checksum.toList = [31#8, 143#8, 77#8] := by
  decide +kernel

/-- V10: the selections of `Hello w`, bucket 124 twice by its last byte; and its last seven bytes. -/
theorem test_stream_hits :
    streamHits ⟨5, 128, 1⟩ [0x48#8, 0x65#8, 0x6C#8, 0x6C#8, 0x6F#8, 0x20#8, 0x77#8] 124 = 2
      ∧ streamHits ⟨5, 128, 1⟩ [0x48#8, 0x65#8, 0x6C#8, 0x6C#8, 0x6F#8, 0x20#8, 0x77#8] 221 = 1
      ∧ (streamLag [0x48#8, 0x65#8, 0x6C#8, 0x6C#8, 0x6F#8, 0x20#8, 0x77#8]).toList
          = [0x77#8, 0x20#8, 0x6F#8, 0x6C#8, 0x6C#8, 0x65#8, 0x48#8] := by decide +kernel

/-- R161: RST empties and keeps the configuration; V27: UndefinedUse in UNCONF. -/
theorem test_rst : (after (exec .rst (hell 1))).dig.count = 0#64
    ∧ (after (exec .rst (hell 1))).cfg = ⟨5, 128, 1⟩ ∧ reply .rst State.reset = [0x05#8] := by decide

/-- V17 row 1: `bucket[i] = i` for 48 buckets. -/
theorem test_fin_histogram :
    (finalize ⟨5, 48, 1⟩ (histogram fun i => if i < 48 then i else 0)).body
        = [0#8, 0#8, 0#8, 0x55#8, 0x55#8, 0x55#8, 0xAA#8, 0xAA#8, 0xAA#8, 0xFF#8, 0xFF#8, 0xFF#8]
      ∧ (finalize ⟨5, 48, 1⟩ (histogram fun i => if i < 48 then i else 0)).q1 = 15#4
      ∧ (finalize ⟨5, 48, 1⟩ (histogram fun i => if i < 48 then i else 0)).q2 = 1#4 := by decide +kernel
/-- V18: ratio nibbles, the exact product of rule R178 among them. -/
theorem test_fin_ratios : ratioNibble 1024 2047 = 2#4 ∧ ratioNibble 1536 2047 = 11#4
    ∧ ratioNibble (2 ^ 64 - 1) (2 ^ 64 - 1) = 4#4 ∧ ratioNibble 0 0 = 0#4 := by decide

/-- V21: 37 packed bytes, field by field; PACK gives them back. -/
theorem test_unpack_fields :
    (after (exec (.unpack ([0x12#8, 0x34#8, 0x56#8, 0x78#8, 0x9A#8] ++ List.replicate 32 0#8))
        State.reset)).dv
      = { checksum := [0x21#8, 0x43#8, 0x65#8], lvalue := 0x87#8, q1 := 9#4, q2 := 10#4,
          body := List.replicate 32 0#8 } := by decide
/-- V6: 20 bytes are BadFormat. -/
theorem test_unpack_rejects : reply (.unpack (List.replicate 20 0#8)) State.reset = [0x02#8] := by decide
/-- V21 row 2, packed. -/
theorem test_pack : reply .pack
      { State.reset with
        dv := { checksum := [0x01#8], lvalue := 0x80#8, q1 := 8#4, q2 := 8#4,
                body := 0x7F#8 :: List.replicate 11 0xFF#8 }
        dvValid := true }
    = [0x00#8, 0x00#8, 0x0F#8, 0x10#8, 0x08#8, 0x88#8] ++ List.replicate 11 0xFF#8 ++ [0x7F#8] := by
  decide

/-- V22. -/
theorem test_hex : reply (.hex [0xDD#8, 0x60#8, 0x00#8]) State.reset
    = [0x00#8, 0x00#8, 0x06#8, 0x44#8, 0x44#8, 0x36#8, 0x30#8, 0x30#8, 0x30#8] := by decide
theorem test_hext1 : reply (.hext1 [0xDD#8, 0x60#8, 0x00#8]) State.reset
    = [0x00#8, 0x00#8, 0x08#8, 0x54#8, 0x31#8, 0x44#8, 0x44#8, 0x36#8, 0x30#8, 0x30#8, 0x30#8] := by
  decide
/-- V22, with `UNHEX "dd"` in a build where lower-case digits are digits. -/
theorem test_unhex :
    reply (.unhex [0x44#8, 0x44#8, 0x36#8, 0x30#8, 0x30#8, 0x30#8]) State.reset
        = [0x00#8, 0x00#8, 0x03#8, 0xDD#8, 0x60#8, 0x00#8]
      ∧ reply (.unhex [0x64#8, 0x64#8]) lowerCase = [0x00#8, 0x00#8, 0x01#8, 0xDD#8] := by
  decide +kernel
theorem test_unhex_rejects : reply (.unhex [0x64#8, 0x64#8]) (fresh 5 128 1) = [0x02#8]
    ∧ reply (.unhex [0x54#8, 0x31#8, 0x44#8, 0x44#8]) (fresh 5 128 1) = [0x02#8] := by decide
/-- R205 and the hex text of the bytes of V21 row 2, after the tag. -/
theorem test_parse_tagged :
    (after (exec (.parse ([0x54#8, 0x31#8, 0x31#8, 0x30#8, 0x30#8, 0x38#8, 0x38#8, 0x38#8]
        ++ List.replicate 24 0x46#8)) (fresh 5 128 1))).dv
      = { checksum := [0x01#8], lvalue := 0x80#8, q1 := 8#4, q2 := 8#4,
          body := List.replicate 12 0xFF#8 } := by decide
theorem test_parse_rejects : reply (.parse [0x54#8, 0x31#8]) (fresh 5 128 1) = [0x02#8] := by decide

/-- V24: `lvalue` 0 against 254, `q1` 0 against 9; V26: the largest score of 15-byte digests. -/
theorem test_score_parts :
    reply (.score (List.replicate 15 0#8) ([0#8, 0xEF#8] ++ List.replicate 13 0#8) true) State.reset
        = [0#8, 0#8, 0#8, 0#8, 24#8]
      ∧ reply (.score (List.replicate 15 0#8) ([0#8, 0#8, 0x90#8] ++ List.replicate 12 0#8) true)
          State.reset = [0#8, 0#8, 0#8, 0#8, 72#8] := by decide
theorem test_score_largest :
    reply (.score (List.replicate 15 0#8) ([0x10#8, 0x08#8, 0x88#8] ++ List.replicate 12 0xFF#8) true)
        State.reset = [0#8, 0#8, 0#8, 0x07#8, 0xC9#8] := by decide

/-- V15: the empty length; and the search on a table that meets rule R151. -/
theorem test_lcap : reply (.lcap 0#64) State.reset = [0x00#8, 0x00#8] := by
  have h : lCapturing 0#64 = 0#8 := by
    have h0 : 0#64 ≤ topval 0 := by rw [BitVec.le_def]; exact Nat.zero_le _
    unfold lCapturing firstReaching
    rw [if_pos h0]
  show ([[0x00#8, lCapturing 0#64]] : List (List Byte)).flatten = _
  rw [h]
  rfl
theorem test_lcap_search : firstReaching topvalStandIn 12#64 255 0 = 6
    ∧ firstReaching topvalStandIn 65536#64 255 0 = 53
    ∧ firstReaching topvalStandIn (BitVec.allOnes 64) 255 0 = 255 := by decide +kernel

/-- V14. -/
theorem test_phash : reply (.phash [0x48#8, 0x65#8, 0x6C#8, 0x6C#8, 0x6F#8]) State.reset
    = [0x00#8, 0x39#8] := by decide +kernel

/-- V28 and program P4: the inspection reads after `Hell`. -/
theorem test_dbgb : reply (.dbgb 0xDD#8) (hell 1) = 0x00#8 :: List.replicate 8 0#8 := by decide
theorem test_dbgc : reply .dbgc (hell 1) = [0x00#8, 0x00#8, 0x01#8, 0x00#8] := by decide
theorem test_dbgn : reply .dbgn (hell 1)
    = [0x00#8, 0#8, 0#8, 0#8, 0#8, 0#8, 0#8, 0#8, 4#8] := by decide
theorem test_dbgl : reply .dbgl (hell 1)
    = [0x00#8, 0x00#8, 0x04#8, 0x6C#8, 0x6C#8, 0x65#8, 0x48#8] := by decide

/-- V27: a malformed request is answered and taken off the port. -/
theorem test_step_malformed : (after (step (State.reset.withRequest [0xFF#8]))).outbox = [[0x04#8]]
    ∧ (after (step (State.reset.withRequest [0xFF#8]))).inbox = [] := by decide

/-! ### Witnesses: concrete states that meet the hypotheses of each statement -/

/-- `fresh` after FIN has been answered. -/
def spent : State := { fresh 5 128 1 with mode := .spent }

/-- A digest value has been written. -/
def loaded : State :=
  { fresh 5 48 1 with
    dv := { checksum := [7#8], lvalue := 6#8, q1 := 1#4, q2 := 2#4, body := List.replicate 12 0xE4#8 }
    dvValid := true }

theorem fresh_inv : ((fresh 5 128 1).withRequest [0x02#8, 0x48#8]).Inv :=
  ⟨fun _ => by decide, (fun h => by cases h), fun _ => by decide, fun _ _ => by decide,
    fun _ _ => by decide, fun _ => by decide +kernel, fun _ => by decide⟩

theorem witness_StepKeepsInvariant : ∃ s t : State, s.Inv ∧ s.mode = .active ∧ step s = .next t
    ∧ t.dig.count = 1#64 :=
  ⟨_, _, fresh_inv, rfl, rfl, by decide⟩

theorem witness_StepRunsDecodedCommand :
    ((fresh 5 128 1).withRequest [0x02#8, 0x48#8]).inbox = [0x02#8, 0x48#8] :: []
      ∧ decode [0x02#8, 0x48#8] = .ok (.upd 0x48#8) := by decide

theorem witness_StepAnswersMalformedRequest :
    (State.reset.withRequest [0x02#8]).inbox = [0x02#8] :: []
      ∧ (¬ ∃ i : Instr, i.wellFormed = true ∧ encode i = [0x02#8])
      ∧ (State.reset.withRequest [0x04#8]).inbox = [0x04#8] :: []
      ∧ (∃ i : Instr, i.wellFormed = true ∧ encode i = [0x04#8]) := by
  refine ⟨rfl, ?_, rfl, .fin, rfl, rfl⟩
  rintro ⟨i, -, h⟩
  cases i <;> simp [encode, lenPrefixed] at h

theorem witness_StepIdlesWithoutRequest : State.reset.inbox = [] := rfl

theorem witness_OneFramedResponsePerRequest :
    (State.reset.withRequest [0x05#8]).inbox = [0x05#8] :: [] := rfl

theorem witness_RaisingCommandChangesNothing :
    ∃ t : State, exec .fin State.reset = .next t ∧ t.outbox = State.reset.outbox ++ [[0x05#8]]
      ∧ ([0x05#8] : List Byte).head? ≠ some 0x00#8 := ⟨_, rfl, by decide, by decide⟩

theorem witness_ModeFollowsTransitionTable :
    ∃ t u : State, exec .rst spent = .next t ∧ t.mode = .active
      ∧ exec (.cfg 3#4 1#2 1#2) State.reset = .next u ∧ u.mode = .unconf :=
  ⟨_, _, rfl, rfl, rfl, rfl⟩

theorem witness_RegistersHaveTheirWriters :
    ∃ t : State, exec (.upd 0x48#8) loaded = .next t
      ∧ (∀ w c b, Instr.upd 0x48#8 ≠ .cfg w c b) ∧ Instr.upd 0x48#8 ≠ .fin
      ∧ (∀ B, Instr.upd 0x48#8 ≠ .unpack B) ∧ (∀ S, Instr.upd 0x48#8 ≠ .parse S)
      ∧ loaded.dvValid = true :=
  ⟨_, rfl, by simp, by simp, by simp, by simp, rfl⟩

theorem witness_DigesterHasItsWriters :
    ∃ t : State, exec .pack loaded = .next t ∧ (∀ w c b, Instr.pack ≠ .cfg w c b)
      ∧ (∀ x, Instr.pack ≠ .upd x) ∧ Instr.pack ≠ .rst ∧ Instr.pack ≠ .fin :=
  ⟨_, rfl, by simp, by simp, by simp, by simp⟩

/-- Two SPENT instances whose counts differ, asked for the count. -/
theorem witness_UnspecifiedRegistersNeverShow :
    ∃ s t s' t' : State, SameToHost s t ∧ s.dig.count ≠ t.dig.count
      ∧ step s = .next s' ∧ step t = .next t' :=
  ⟨spent.withRequest [0x12#8], { spent with dig := (hell 1).dig }.withRequest [0x12#8], _, _,
    ⟨rfl, rfl, rfl, rfl, rfl, fun _ => rfl, (fun h => by cases h), fun _ => rfl⟩,
    by decide, rfl, rfl⟩

theorem witness_DecodeOfEncode : (Instr.unpack (List.replicate 65535 0#8)).wellFormed = true
    ∧ (Instr.hex (List.replicate 32766 0#8)).wellFormed = true := by
  rw [Instr.wellFormed, Instr.wellFormed, fitsLength, fitsHexResult, List.length_replicate,
    List.length_replicate]
  exact ⟨rfl, rfl⟩

theorem witness_EncodeOfDecode : decode [0x07#8, 0x00#8, 0x00#8] = .ok (.hex []) := by decide

theorem witness_ReservedOpcodesAreRejected :
    (0x00#8).toNat = 0 ∧ (0x0E#8).toNat = 0x0E ∧ (0x0F#8).toNat = 0x0F ∧ 0x14 ≤ (0x14#8).toNat
      ∧ 0x14 ≤ (0xFF#8).toNat := by decide

theorem witness_CfgLoadsValidTriple :
    (4 ≤ (4#4).toNat ∧ (4#4).toNat ≤ 8 ∧ (1#2 = 1#2 ∨ 1#2 = 3#2) ∧ 0#2 ≠ 3#2
        ∧ ¬(0#2 = 0#2 ∧ 1#2 = 3#2))
      ∧ (4 ≤ (8#4).toNat ∧ (8#4).toNat ≤ 8 ∧ (3#2 = 1#2 ∨ 3#2 = 3#2) ∧ 2#2 ≠ 3#2
        ∧ ¬(2#2 = 0#2 ∧ 3#2 = 3#2)) := by decide

theorem witness_CfgRejectsInvalidTriple :
    (3#4).toNat < 4 ∧ 8 < (9#4).toNat ∧ (0#2 ≠ 1#2 ∧ 0#2 ≠ 3#2) ∧ (2#2 ≠ 1#2 ∧ 2#2 ≠ 3#2)
      ∧ 3#2 = 3#2 ∧ (0#2 = 0#2 ∧ 3#2 = 3#2) := by decide

theorem witness_RstEmptiesDigester :
    (fresh 5 128 1).mode ≠ .unconf ∧ spent.mode ≠ .unconf ∧ State.reset.mode = .unconf := by decide

theorem witness_UndefinedUseIsAnswered :
    State.reset.mode ≠ .active ∧ spent.mode ≠ .active
      ∧ State.reset.dvValid = false := by decide

theorem witness_UpdWarmupByteOnlyShifts :
    (fresh 5 128 1).mode = .active ∧ (fresh 5 128 1).dig.count.toNat ≠ 2 ^ 63 - 1
      ∧ (fresh 5 128 1).dig.count.toNat + 1 < (fresh 5 128 1).cfg.w
      ∧ (hell 1).dig.count.toNat + 1 < { hell 1 with cfg := ⟨6, 128, 1⟩ }.cfg.w := by decide

theorem hits_le (g : Cfg) (x : Byte) (lag : Vector Byte 7) (k : Nat) :
    bucketHits g x lag k ≤ 21 :=
  (List.countP_le_length ..).trans ((List.length_take_le' ..).trans (by decide))

/-- The first running byte, with counters so full that they just take every increment. -/
def nearlyFull (c : Nat) : State :=
  { hell c with
    dig := { (hell c).dig with bucket := Vector.replicate 256 (BitVec.ofNat 64 (2 ^ 64 - 22)) } }

theorem witness_UpdRunningByteMixes (c : Nat) :
    (nearlyFull c).mode = .active ∧ (nearlyFull c).dig.count.toNat ≠ 2 ^ 63 - 1
      ∧ (nearlyFull c).cfg.w ≤ (nearlyFull c).dig.count.toNat + 1
      ∧ (∀ k (_ : k < 256),
          (nearlyFull c).dig.bucket[k].toNat
            + bucketHits (nearlyFull c).cfg 0x6F#8 (nearlyFull c).dig.lag k ≤ 2 ^ 64 - 1)
      ∧ (nearlyFull 1).cfg.c ≠ 3 := by
  have hn : (nearlyFull c).dig.count = 4#64 := rfl
  refine ⟨rfl, by rw [hn]; decide, by rw [hn]; exact le_refl 5, fun k hk => ?_, by decide⟩
  have h := hits_le (nearlyFull c).cfg 0x6F#8 (nearlyFull c).dig.lag k
  have e : (nearlyFull c).dig.bucket[k] = BitVec.ofNat 64 (2 ^ 64 - 22) := Vector.getElem_replicate hk
  rw [e, BitVec.toNat_ofNat]
  omega

theorem witness_UpdThreeByteChecksum :
    (nearlyFull 3).mode = .active ∧ (nearlyFull 3).dig.count.toNat ≠ 2 ^ 63 - 1
      ∧ (nearlyFull 3).cfg.w ≤ (nearlyFull 3).dig.count.toNat + 1 ∧ (nearlyFull 3).cfg.c = 3
      ∧ (∀ k (_ : k < 256),
          (nearlyFull 3).dig.bucket[k].toNat
            + bucketHits (nearlyFull 3).cfg 0x6F#8 (nearlyFull 3).dig.lag k ≤ 2 ^ 64 - 1) :=
  have h := witness_UpdRunningByteMixes 3
  ⟨h.1, h.2.1, h.2.2.1, rfl, h.2.2.2.1⟩

theorem witness_UpdRaisesAtItsLimits :
    ({ fresh 5 128 1 with dig := { emptyDigester with count := BitVec.ofNat 64 (2 ^ 63 - 1) } } :
        State).dig.count.toNat = 2 ^ 63 - 1
      ∧ (hell 1).mode = .active ∧ (hell 1).cfg.w ≤ (hell 1).dig.count.toNat + 1
      ∧ 2 ^ 64 ≤ (Vector.replicate 256 (BitVec.allOnes 64))[221].toNat
          + bucketHits (hell 1).cfg 0x6F#8 (hell 1).dig.lag 221 := by decide +kernel

theorem witness_PairTableNamesEveryPairOnce : 4 ≤ 4 ∧ 4 ≤ 8 ∧ 8 ≤ 8 ∧ 1 ≤ 1 ∧ 1 < 2 ∧ 2 ≤ 4 - 1
    ∧ 6 < 7 ∧ 7 ≤ 8 - 1 := by decide

theorem witness_FinComputesDigest :
    (fresh 5 128 1).mode = .active ∧ (fresh 5 128 1).cfg.Valid
      ∧ (List.replicate 128 0).Pairwise (· ≤ ·)
      ∧ (List.replicate 128 0).Perm (((fresh 5 128 1).dig.bucket.toList.take 128).map BitVec.toNat) := by
  refine ⟨rfl, by decide, List.pairwise_replicate.mpr (.inr le_rfl), ?_⟩
  rw [show ((fresh 5 128 1).dig.bucket.toList.take 128).map BitVec.toNat = List.replicate 128 0 by
    decide +kernel]

theorem witness_QuartilesAreOrdered : (48 = 48 ∨ 48 = 128 ∨ 48 = 256)
    ∧ (256 = 48 ∨ 256 = 128 ∨ 256 = 256) := by decide

theorem witness_ShortStreamDigest :
    (fresh 5 128 1).mode = .active ∧ (fresh 5 128 1).cfg.Valid ∧ (fresh 5 128 1).dig = emptyDigester
      ∧ ([] : List Byte).length < (fresh 5 128 1).cfg.w
      ∧ ([0x61#8, 0x62#8, 0x63#8, 0x64#8] : List Byte).length < (fresh 5 128 1).cfg.w :=
  ⟨rfl, by decide, rfl, by decide, by decide⟩

theorem witness_ResetLaw : (fresh 5 128 1).mode ≠ .unconf
    ∧ cfgTriple 5#4 1#2 1#2 = some (fresh 5 128 1).cfg ∧ spent.mode ≠ .unconf ∧ cfgTriple 5#4 1#2 1#2 = some spent.cfg := by decide

/-- `Hello` has one running byte with `w = 5`, `Hell` none. -/
theorem witness_StreamClosedForm :
    (fresh 5 128 1).mode = .active ∧ (fresh 5 128 1).cfg.Valid ∧ (fresh 5 128 1).dig = emptyDigester
      ∧ [0x48#8, 0x65#8, 0x6C#8, 0x6C#8, 0x6F#8].length ≤ 2 ^ 63 - 1
      ∧ (∀ k, k < 256 →
          streamHits (fresh 5 128 1).cfg [0x48#8, 0x65#8, 0x6C#8, 0x6C#8, 0x6F#8] k ≤ 2 ^ 64 - 1)
      ∧ (∀ k, k < 256 →
          streamHits (fresh 5 128 1).cfg [0x48#8, 0x65#8, 0x6C#8, 0x6C#8] k ≤ 2 ^ 64 - 1) :=
  ⟨rfl, by decide, rfl, by decide, by decide +kernel, by decide +kernel⟩

theorem witness_DigestForgetsThePast :
    cfgTriple 5#4 1#2 1#2 ≠ none
      ∧ ∃ t1 t2 : State,
        runCommands (.cfg 5#4 1#2 1#2 :: pseudoUpdate [0x48#8]) State.reset = .next t1
        ∧ runCommands (.cfg 5#4 1#2 1#2 :: pseudoUpdate [0x48#8]) (hell 3) = .next t2 :=
  ⟨by decide, _, _, rfl, rfl⟩

theorem witness_PackReturnsPackedDigest : loaded.dvValid = true := rfl

theorem witness_UnpackLoadsDigest :
    ((List.replicate 15 0#8).length, 1) ∈ [(15, 1), (35, 1), (37, 3), (67, 1), (69, 3)]
      ∧ ((List.replicate 69 0#8).length, 3) ∈ [(15, 1), (35, 1), (37, 3), (67, 1), (69, 3)] := by
  decide

theorem witness_UnpackRejectsOtherLengths :
    ([] : List Byte).length ∉ [15, 35, 37, 67, 69]
      ∧ (List.replicate 36 0#8).length ∉ [15, 35, 37, 67, 69] := by decide

theorem witness_UnpackThenPackReturnsBytes :
    (List.replicate 35 0xDD#8).length ∈ [15, 35, 37, 67, 69] := by decide

theorem witness_UnpackOfPack : loaded.dv.Shaped := by decide

theorem witness_HexReturnsUpperCaseText : (List.replicate 32766 0xAB#8).length ≤ 32766 := by
  rw [List.length_replicate]

/-- The hypothesis of UnhexReturnsBytes on one character. -/
abbrev spells (lowerOk : Bool) (ch : Byte) (v : Nat) : Prop :=
  (0x30 ≤ ch.toNat ∧ ch.toNat ≤ 0x39 ∧ v = ch.toNat - 0x30)
    ∨ (0x41 ≤ ch.toNat ∧ ch.toNat ≤ 0x46 ∧ v = 10 + (ch.toNat - 0x41))
    ∨ (lowerOk = true ∧ 0x61 ≤ ch.toNat ∧ ch.toNat ≤ 0x66 ∧ v = 10 + (ch.toNat - 0x61))

/-- The text `AafF09` in a build with lower-case digits, and `D609` in one without: a boundary digit of each
range. -/
theorem witness_UnhexReturnsBytes :
    let S := [0x41#8, 0x61#8, 0x66#8, 0x46#8, 0x30#8, 0x39#8]
    let B := [0xAA#8, 0xFF#8, 0x09#8]
    let S' := [0x44#8, 0x36#8, 0x30#8, 0x39#8]
    let B' := [0xD6#8, 0x09#8]
    (S.length = 2 * B.length ∧ (lowerCase.build.hexLowerOk = true)
      ∧ ∀ n, n < B.length →
        spells lowerCase.build.hexLowerOk (S.getD (2 * n) 0#8) ((B.getD n 0#8).toNat / 16)
          ∧ spells lowerCase.build.hexLowerOk (S.getD (2 * n + 1) 0#8) ((B.getD n 0#8).toNat % 16))
    ∧ (S'.length = 2 * B'.length
      ∧ ∀ n, n < B'.length →
        spells (fresh 5 128 1).build.hexLowerOk (S'.getD (2 * n) 0#8) ((B'.getD n 0#8).toNat / 16)
          ∧ spells (fresh 5 128 1).build.hexLowerOk (S'.getD (2 * n + 1) 0#8)
              ((B'.getD n 0#8).toNat % 16)) := by
  refine ⟨⟨rfl, rfl, ?_⟩, rfl, ?_⟩ <;> decide

/-- `0x47` is the character `G`; `0x61` is `a`, no digit where lower case is not accepted. -/
theorem witness_UnhexRejectsOtherText :
    [0x44#8].length % 2 = 1
      ∧ (∃ ch ∈ [0x44#8, 0x47#8],
          ¬(0x30 ≤ ch.toNat ∧ ch.toNat ≤ 0x39) ∧ ¬(0x41 ≤ ch.toNat ∧ ch.toNat ≤ 0x46)
            ∧ ¬((fresh 5 128 1).build.hexLowerOk = true ∧ 0x61 ≤ ch.toNat ∧ ch.toNat ≤ 0x66))
      ∧ (∃ ch ∈ [0x61#8, 0x61#8],
          ¬(0x30 ≤ ch.toNat ∧ ch.toNat ≤ 0x39) ∧ ¬(0x41 ≤ ch.toNat ∧ ch.toNat ≤ 0x46)
            ∧ ¬((fresh 5 128 1).build.hexLowerOk = true ∧ 0x61 ≤ ch.toNat ∧ ch.toNat ≤ 0x66)) := by
  decide

theorem witness_UnhexInvertsHex : ([0xDD#8, 0x60#8, 0x00#8] : List Byte).length ≤ 32766
    ∧ [0x30#8, 0x39#8, 0x41#8, 0x46#8].length % 2 = 0
    ∧ ∀ ch ∈ [0x30#8, 0x39#8, 0x41#8, 0x46#8],
      (0x30 ≤ ch.toNat ∧ ch.toNat ≤ 0x39) ∨ (0x41 ≤ ch.toNat ∧ ch.toNat ≤ 0x46) := by decide

theorem witness_ParseLoadsDigestText :
    hexDec (fresh 5 128 1).build.hexLowerOk (List.replicate 30 0x46#8)
        = some (List.replicate 15 0xFF#8)
      ∧ ((List.replicate 15 0xFF#8).length, 1) ∈ [(15, 1), (35, 1), (37, 3), (67, 1), (69, 3)] := by
  decide

theorem witness_ParseRejectsOtherText :
    ([] : List Byte).length ∉ [30, 70, 74, 134, 138]
      ∧ (List.replicate 30 0x47#8).length ∈ [30, 70, 74, 134, 138]
      ∧ ∃ ch ∈ List.replicate 30 0x47#8,
          ¬(0x30 ≤ ch.toNat ∧ ch.toNat ≤ 0x39) ∧ ¬(0x41 ≤ ch.toNat ∧ ch.toNat ≤ 0x46)
            ∧ ¬((fresh 5 128 1).build.hexLowerOk = true ∧ 0x61 ≤ ch.toNat ∧ ch.toNat ≤ 0x66) := by
  decide

theorem witness_ParseOfPackedText : loaded.dv.Shaped := by decide

theorem witness_ScoreReturnsSumOfParts :
    ∃ a b : DigestValue, unpackBytes (List.replicate 35 0#8) = some a
      ∧ unpackBytes (List.replicate 35 0xFF#8) = some b
      ∧ (List.replicate 35 0#8).length = (List.replicate 35 0xFF#8).length :=
  ⟨_, _, rfl, rfl, rfl⟩

theorem witness_ScoreRejectsBadShapes :
    (List.replicate 20 0#8).length ∉ [15, 35, 37, 67, 69]
      ∧ (List.replicate 15 0#8).length ∈ [15, 35, 37, 67, 69]
      ∧ (List.replicate 69 0#8).length ∈ [15, 35, 37, 67, 69]
      ∧ (List.replicate 15 0#8).length ≠ (List.replicate 69 0#8).length := by decide

theorem witness_ScoreIsSymmetricAndZeroOnSelf :
    (List.replicate 67 0xDD#8).length ∈ [15, 35, 37, 67, 69] := by decide

theorem witness_ScoreBound :
    loaded.dv.body.length = { loaded.dv with body := List.replicate 12 0x1B#8 }.body.length := by decide

theorem witness_PhashFoldsBytes :
    ∃ h : Nat → Byte, h 0 = 0#8
      ∧ ∀ n, n < [0x48#8, 0x65#8].length → h (n + 1) = pearson (h n ^^^ [0x48#8, 0x65#8].getD n 0#8) :=
  ⟨fun n => hashSeq ([0x48#8, 0x65#8].take n), rfl, by decide +kernel⟩

theorem witness_InspectionReadsInActive :
    (hell 1).build.debugEn = true ∧ (hell 1).mode = .active ∧ (hell 1).cfg.Valid := by decide

theorem witness_InspectionReadsTurnedAway :
    ((∃ j, Instr.dbgb 255#8 = .dbgb j) ∨ Instr.dbgb 255#8 = .dbgc ∨ Instr.dbgb 255#8 = .dbgn
        ∨ Instr.dbgb 255#8 = .dbgl)
      ∧ { hell 1 with build := ⟨false, false⟩ }.build.debugEn = false
      ∧ spent.build.debugEn = true ∧ spent.mode ≠ .active :=
  ⟨.inl ⟨_, rfl⟩, rfl, rfl, by decide⟩

theorem witness_StatelessCommandsAreFunctions :
    (∃ B, Instr.hex [] = .hex B) ∧ (∃ X, Instr.phash [0#8] = .phash X)
      ∧ (hell 1).build = ⟨true, false⟩ := ⟨⟨_, rfl⟩, ⟨_, rfl⟩, rfl⟩

theorem witness_NamesSpellTheirTriples : Cfg.Valid ⟨4, 48, 1⟩ ∧ Cfg.Valid ⟨8, 256, 3⟩ := by decide

end Sys2Proof.Tests
end

section
/-! Proofs about the Pearson mixer (40_pearson.md): the fold of `hashseq` is the end of the chain that rule
R142 writes as pseudocode. -/

namespace Sys2Proof.Machine

/-! ### The fold of `hashseq` -/

/-- `hashseq` of no bytes is the chain's start. -/
@[simp] theorem hashSeq_nil : hashSeq [] = 0#8 := rfl

/-- One more byte at the end is one more step of the chain (rule R142). -/
theorem hashSeq_append_singleton (X : List Byte) (a : Byte) :
    hashSeq (X ++ [a]) = pearson (hashSeq X ^^^ a) :=
  List.foldl_concat ..

/-- A chain that starts at 0 and steps through the bytes of `X` ends at `hashseq(X)`. The induction is
from the end of `X`, as the chain's last step reads the last byte. -/
theorem hashSeq_eq_chain (X : List Byte) (h : Nat → Byte) (h0 : h 0 = 0#8)
    (hstep : ∀ n, n < X.length → h (n + 1) = pearson (h n ^^^ X.getD n 0#8)) :
    hashSeq X = h X.length := by
  induction X using List.reverseRecOn with
  | nil => rw [hashSeq_nil, List.length_nil, h0]
  | append_singleton X a ih =>
    have hprefix : ∀ n, n < X.length → h (n + 1) = pearson (h n ^^^ X.getD n 0#8) := by
      intro n hn
      rw [hstep n (by simp; omega), List.getD_append _ _ _ _ hn]
    have hlast : h (X.length + 1) = pearson (h X.length ^^^ a) := by
      rw [hstep X.length (by simp), List.getD_append_right _ _ _ _ le_rfl]
      simp
    rw [hashSeq_append_singleton, ih hprefix, List.length_append, List.length_singleton, hlast]

/-! ### PHASH -/

/-- PHASH's request is its opcode, the two length bytes and the bytes (rule R103). -/
theorem encode_phash (X : List Byte) :
    encode (.phash X)
      = 0x0D#8 :: BitVec.ofNat 8 (X.length / 256) :: BitVec.ofNat 8 (X.length % 256) :: X := by
  rw [encode, lenPrefixed_eq]

/-- Settles O53: the response carries `hashseq(X)`, which is where the chain ends. -/
theorem phashFoldsBytes : Obligations.PhashFoldsBytes := by
  unfold Obligations.PhashFoldsBytes
  intro s X h h0 hstep
  refine ⟨?_, encode_phash X⟩
  rw [exec_phash, hashSeq_eq_chain X h h0 hstep]
  rfl

end Sys2Proof.Machine
end

section
/-! Proofs about the length quantizer (41_length_quantizer.md): whichever way the open table falls, `topval`
meets rule R151, so the search for the length code always finds a threshold and stops at the first. -/

namespace Sys2Proof.Machine

/-! ### The threshold table -/

/-- The table is the open one where that passes the check, and the stand-in, which passes, where not. -/
theorem topvalOk_topval : topvalOk topval = true := by
  by_cases h : topvalOk Config.topvalRaw = true
  · have hraw : topval = Config.topvalRaw := funext fun _ => if_pos h
    rw [hraw, h]
  · have hstand : topval = topvalStandIn := funext fun _ => if_neg h
    rw [hstand, topvalOk_standIn]

/-- The last threshold is the greatest 64-bit word (rule R151). -/
theorem topval_last : topval 255 = BitVec.allOnes 64 := by
  obtain ⟨-, hlast, -⟩ := topvalOk_spec topvalOk_topval
  exact hlast

/-- Every length is reached by the last threshold, so the search always finds one. -/
theorem le_topval_last (len : U64) : len ≤ topval 255 := by
  rw [topval_last, BitVec.le_def, BitVec.toNat_allOnes]
  exact Nat.le_sub_one_of_lt len.isLt

/-- Settles O55: the passed check gives every constraint as stated but the last entry's, which it gives as
the word of all ones. -/
theorem thresholdsMeetConstraints : Obligations.ThresholdsMeetConstraints := by
  unfold Obligations.ThresholdsMeetConstraints
  obtain ⟨hfirst, hlast, hrising, ⟨h5, h6⟩, ⟨h6', h7⟩, h52, h53⟩ := topvalOk_spec topvalOk_topval
  have hlastNat : (topval 255).toNat = 2 ^ 64 - 1 := by rw [hlast, BitVec.toNat_allOnes]
  exact ⟨hfirst, hlastNat, hrising, h5, h6, h6', h7, h52, h53⟩

/-! ### The length code -/

/-- The index found fits in a byte, so the length code is that index. -/
theorem lCapturing_toNat (len : U64) :
    (lCapturing len).toNat = firstReaching topval len 255 0 := by
  obtain ⟨-, hle, -⟩ := firstReaching_spec (t := topval) 255 0 (le_topval_last len)
  rw [lCapturing, BitVec.toNat_ofNat, Nat.mod_eq_of_lt (by omega)]

/-- The length code is the smallest index whose threshold is at least the length (rule R152). -/
theorem lCapturing_spec (len : U64) :
    len ≤ topval (lCapturing len).toNat ∧ ∀ j, j < (lCapturing len).toNat → topval j < len := by
  obtain ⟨-, -, hreaches, hbelow⟩ := firstReaching_spec (t := topval) 255 0 (le_topval_last len)
  rw [lCapturing_toNat]
  exact ⟨hreaches, fun j hj => hbelow j (Nat.zero_le j) hj⟩

/-! ### LCAP -/

/-- Settles O54: LCAP answers the length code of its operand, which is the smallest such index. -/
theorem lcapReturnsSmallestIndex : Obligations.LcapReturnsSmallestIndex := by
  unfold Obligations.LcapReturnsSmallestIndex
  intro s v
  obtain ⟨hreaches, hbelow⟩ := lCapturing_spec v
  exact ⟨lCapturing v, hreaches, hbelow, exec_lcap v s⟩

end Sys2Proof.Machine
end

section
/-! Proofs about the streaming digester (42_digester.md): a command that raises leaves no partial effect, RST
empties the digester, and what one absorbed byte does in warm-up and after it. -/

namespace Sys2Proof.Machine

/-! ### Raising -/

/-- A command either raises an error status in the state it started in, or its one response is OK. -/
theorem exec_raises_or_responds {i : Instr} {s t : State} (h : exec i s = .next t) :
    (∃ k, k ≠ .ok ∧ t = s.raise k) ∨ ∃ result, t.outbox = s.outbox ++ [0x00#8 :: result] := by
  rcases exec_effect h with hraise | ⟨_, rfl⟩ | ⟨_, _, _, _, _, _, rfl⟩ | ⟨_, _, rfl⟩
    | ⟨_, _, _, _, _, _, rfl⟩ | ⟨_, _, rfl⟩ | ⟨_, _, rfl⟩
  case inl => exact .inl hraise
  all_goals exact .inr ⟨_, rfl⟩

/-- Settles O8: a response that is not OK comes from a raise, which only answers (rule R184). -/
theorem raisingCommandChangesNothing : Obligations.RaisingCommandChangesNothing := by
  unfold Obligations.RaisingCommandChangesNothing
  intro i s t r hexec hout hne
  rcases exec_raises_or_responds hexec with ⟨k, -, rfl⟩ | ⟨result, hok⟩
  · obtain rfl : [statusCode k] = r := by simpa using hout
    rfl
  · obtain rfl : 0x00#8 :: result = r := by simpa using hok.symm.trans hout
    exact absurd rfl hne

/-! ### RST -/

/-- Settles O19, one clause for each way RST can end. -/
theorem rstEmptiesDigester : Obligations.RstEmptiesDigester := by
  unfold Obligations.RstEmptiesDigester
  refine ⟨rfl, fun s => ?_⟩
  rcases execRst_cases s with ⟨hmode, hexec⟩ | ⟨hmode, hexec⟩
  · exact ⟨fun _ => hexec, fun h => absurd h hmode⟩
  · exact ⟨fun h => absurd hmode h, fun _ => hexec⟩

/-! ### UPD: the byte that is absorbed -/

/-- UPD below the stream limit, where the digester takes the byte: its new registers, and the answer OK. -/
theorem exec_upd_of_absorb {s : State} {x : Byte} {d : Digester} (hmode : s.mode = .active)
    (hcount : s.dig.count.toNat ≠ countLimit) (habsorb : absorb s.cfg x s.dig = some d) :
    exec (.upd x) s = .next (({ s with dig := d } : State).respond []) := by
  rcases execUpd_cases x s with ⟨-, -, d', habsorb', hexec⟩ | ⟨hlimit, -⟩
  · obtain rfl : d = d' := Option.some.inj (habsorb.symm.trans habsorb')
    exact hexec
  · simp [hmode, hcount, habsorb] at hlimit

/-- A warm-up byte shifts into `lag` and is counted (rule R163). -/
theorem absorb_of_warmup {g : Cfg} (x : Byte) {d : Digester} (hwarm : d.count.toNat + 1 < g.w) :
    absorb g x d = some { d with lag := shiftLag x d.lag, count := d.count + 1#64 } := by
  rcases absorb_cases g x d with ⟨hrun, -⟩ | ⟨hrun, -⟩ | ⟨-, habsorb⟩
  · omega
  · omega
  · exact habsorb

/-- Settles O21: the warm-up byte is absorbed, and the digester it leaves is the one stated. -/
theorem updWarmupByteOnlyShifts : Obligations.UpdWarmupByteOnlyShifts := by
  unfold Obligations.UpdWarmupByteOnlyShifts
  intro s x hmode hcount hwarm
  exact exec_upd_of_absorb hmode hcount (absorb_of_warmup x hwarm)

/-- A running byte that carries no counter past `2^64 - 1` adds its hits to every bucket, mixes the
checksum, shifts into `lag` and is counted (rules R164, R167). -/
theorem absorb_of_running {g : Cfg} {x : Byte} {d : Digester} (hrun : g.w ≤ d.count.toNat + 1)
    (hroom : ∀ k (_ : k < 256), d.bucket[k].toNat + bucketHits g x d.lag k ≤ 2 ^ 64 - 1) :
    ∃ bucket' : Vector U64 256,
      (∀ k (_ : k < 256), bucket'[k].toNat = d.bucket[k].toNat + bucketHits g x d.lag k)
      ∧ absorb g x d
          = some
              { lag := shiftLag x d.lag
                checksum := nextChecksum g.c x d.lag[0] d.checksum
                bucket := bucket'
                count := d.count + 1#64 } := by
  simp only [bucketHits_eq_countP] at hroom ⊢
  rcases absorb_cases g x d with ⟨-, hfull, -⟩ | ⟨-, bucket', hinc, habsorb⟩ | ⟨hwarm, -⟩
  · obtain ⟨k, hk, hover⟩ := incrementAll_eq_none.mp hfull
    have := hroom k hk
    omega
  · exact ⟨bucket', incrementAll_getElem hinc, habsorb⟩
  · omega

/-- The checksum after a running byte: rule R165 gives its first byte, and only a 3-byte checksum has the
other two written (rule R166). -/
theorem nextChecksum_eq (c : Nat) (l0 l1 : Byte) (cs : Vector Byte 3) :
    ∃ k1 k2, nextChecksum c l0 l1 cs = #v[nextChecksum0 l0 l1 cs[0], k1, k2]
      ∧ (c ≠ 3 → k1 = cs[1] ∧ k2 = cs[2]) := by
  unfold nextChecksum
  by_cases hc : c = 3
  · exact ⟨_, _, if_pos hc, fun hne => absurd hc hne⟩
  · exact ⟨_, _, if_neg hc, fun _ => ⟨rfl, rfl⟩⟩

/-- Settles O22: the running byte is absorbed, its counters and its checksum being those of
`absorb_of_running` and `nextChecksum_eq`. -/
theorem updRunningByteMixes : Obligations.UpdRunningByteMixes := by
  unfold Obligations.UpdRunningByteMixes
  intro s x hmode hcount hrun hroom
  obtain ⟨bucket', hbucket, habsorb⟩ := absorb_of_running hrun hroom
  obtain ⟨k1, k2, hchecksum, hupper⟩ := nextChecksum_eq s.cfg.c x s.dig.lag[0] s.dig.checksum
  rw [hchecksum] at habsorb
  exact ⟨bucket', _, k1, k2, hbucket, rfl, hupper, exec_upd_of_absorb hmode hcount habsorb⟩

end Sys2Proof.Machine
end

section
/-! Proofs about requests (30_encoding.md): the decoder and the encoder undo each other on the well-formed
commands, so a step either performs the one command its request encodes or answers BadRequest. -/

namespace Sys2Proof

/-! ### Decoding and encoding -/

/-- Settles O13, one case for each format of rule R103. -/
theorem decodeOfEncode : Obligations.DecodeOfEncode := by
  unfold Obligations.DecodeOfEncode
  intro i hwf
  cases i with
  | cfg wraw craw bsel =>
    exact (decode_cfg _).trans
      (decodeF1_eq_ok.mpr ⟨_, rfl, (cfgOfByte_cfgByte wraw craw bsel).symm⟩)
  | upd x => rfl
  | rst => rfl
  | fin => rfl
  | pack => rfl
  | unpack B => exact decodeFV_eq_ok.mpr ⟨B, of_decide_eq_true hwf, rfl, rfl⟩
  | hex B => exact decodeHexFV_eq_ok.mpr ⟨B, of_decide_eq_true hwf, rfl, rfl⟩
  | hext1 B => exact decodeHexFV_eq_ok.mpr ⟨B, of_decide_eq_true hwf, rfl, rfl⟩
  | unhex S => exact decodeFV_eq_ok.mpr ⟨S, of_decide_eq_true hwf, rfl, rfl⟩
  | score A B l =>
    obtain ⟨hA, hB⟩ := Bool.and_eq_true_iff.mp hwf
    exact decodeFS_eq_ok.mpr ⟨A, B, l, of_decide_eq_true hA, of_decide_eq_true hB, rfl, rfl⟩
  | parse S => exact decodeFV_eq_ok.mpr ⟨S, of_decide_eq_true hwf, rfl, rfl⟩
  | lcap v => exact decodeFQ_eq_ok.mpr ⟨v, rfl, rfl⟩
  | phash X => exact decodeFV_eq_ok.mpr ⟨X, of_decide_eq_true hwf, rfl, rfl⟩
  | dbgb j => rfl
  | dbgc => rfl
  | dbgn => rfl
  | dbgl => rfl

/-- The opcode byte of an accepted request, as the byte itself. -/
theorem opcode_of_decodeOp {op : Byte} {rest : List Byte} {i : Instr} (h : decodeOp op rest = .ok i) :
    op ∈ [0x01#8, 0x02#8, 0x03#8, 0x04#8, 0x05#8, 0x06#8, 0x07#8, 0x08#8, 0x09#8, 0x0A#8, 0x0B#8,
      0x0C#8, 0x0D#8, 0x10#8, 0x11#8, 0x12#8, 0x13#8] := by
  have hop := decodeOp_eq_ok h
  simp only [List.mem_cons, List.not_mem_nil, or_false, ← BitVec.toNat_inj] at hop ⊢
  exact hop

/-! What a format accepts is what the command it makes encodes to, once that is so of every operand. -/

theorem encode_of_decodeF0 {op : Byte} {rest : List Byte} {i j : Instr}
    (hj : j.wellFormed = true ∧ encode j = [op]) (h : decodeF0 j rest = .ok i) :
    i.wellFormed = true ∧ encode i = op :: rest := by
  obtain ⟨rfl, rfl⟩ := decodeF0_eq_ok.mp h
  exact hj

theorem encode_of_decodeF1 {op : Byte} {rest : List Byte} {i : Instr} {f : Byte → Instr}
    (hf : ∀ a, (f a).wellFormed = true ∧ encode (f a) = [op, a]) (h : decodeF1 f rest = .ok i) :
    i.wellFormed = true ∧ encode i = op :: rest := by
  obtain ⟨a, rfl, rfl⟩ := decodeF1_eq_ok.mp h
  exact hf a

theorem encode_of_decodeFV {op : Byte} {rest : List Byte} {i : Instr} {f : List Byte → Instr}
    (hf : ∀ X, (f X).wellFormed = fitsLength X ∧ encode (f X) = op :: lenPrefixed X)
    (h : decodeFV f rest = .ok i) : i.wellFormed = true ∧ encode i = op :: rest := by
  obtain ⟨X, hX, rfl, rfl⟩ := decodeFV_eq_ok.mp h
  exact ⟨(hf X).1.trans (decide_eq_true hX), (hf X).2⟩

theorem encode_of_decodeHexFV {op : Byte} {rest : List Byte} {i : Instr} {f : List Byte → Instr}
    (hf : ∀ X, (f X).wellFormed = fitsHexResult X ∧ encode (f X) = op :: lenPrefixed X)
    (h : decodeHexFV f rest = .ok i) : i.wellFormed = true ∧ encode i = op :: rest := by
  obtain ⟨X, hX, rfl, rfl⟩ := decodeHexFV_eq_ok.mp h
  exact ⟨(hf X).1.trans (decide_eq_true hX), (hf X).2⟩

/-- CFG's operand byte is put together again from its fields (rule R105). -/
theorem encode_cfgOfByte (a : Byte) : encode (cfgOfByte a) = [0x01#8, a] := by
  rw [cfgOfByte, encode, cfgByte_of_fields]

/-- Settles O14: the opcode selects the format, and what the format accepts is what its command encodes
to. -/
theorem encodeOfDecode : Obligations.EncodeOfDecode := by
  unfold Obligations.EncodeOfDecode
  intro q i h
  rcases q with _ | ⟨op, rest⟩
  · cases h
  have hop := opcode_of_decodeOp h
  simp only [List.mem_cons, List.not_mem_nil, or_false] at hop
  rcases hop with rfl | rfl | rfl | rfl | rfl | rfl | rfl | rfl | rfl | rfl | rfl | rfl | rfl | rfl
    | rfl | rfl | rfl
  · exact encode_of_decodeF1 (fun a => ⟨rfl, encode_cfgOfByte a⟩) h
  · exact encode_of_decodeF1 (fun _ => ⟨rfl, rfl⟩) h
  · exact encode_of_decodeF0 ⟨rfl, rfl⟩ h
  · exact encode_of_decodeF0 ⟨rfl, rfl⟩ h
  · exact encode_of_decodeF0 ⟨rfl, rfl⟩ h
  · exact encode_of_decodeFV (fun _ => ⟨rfl, rfl⟩) h
  · exact encode_of_decodeHexFV (fun _ => ⟨rfl, rfl⟩) h
  · exact encode_of_decodeHexFV (fun _ => ⟨rfl, rfl⟩) h
  · exact encode_of_decodeFV (fun _ => ⟨rfl, rfl⟩) h
  · obtain ⟨A, B, l, hA, hB, rfl, rfl⟩ := decodeFS_eq_ok.mp h
    exact ⟨Bool.and_eq_true_iff.mpr ⟨decide_eq_true hA, decide_eq_true hB⟩, rfl⟩
  · exact encode_of_decodeFV (fun _ => ⟨rfl, rfl⟩) h
  · obtain ⟨v, rfl, rfl⟩ := decodeFQ_eq_ok.mp h
    exact ⟨rfl, rfl⟩
  · exact encode_of_decodeFV (fun _ => ⟨rfl, rfl⟩) h
  · exact encode_of_decodeF1 (fun _ => ⟨rfl, rfl⟩) h
  · exact encode_of_decodeF0 ⟨rfl, rfl⟩ h
  · exact encode_of_decodeF0 ⟨rfl, rfl⟩ h
  · exact encode_of_decodeF0 ⟨rfl, rfl⟩ h

/-- A request is the encoding of a well-formed command exactly where the decoder reads that command. -/
theorem decode_eq_ok_iff {q : List Byte} {i : Instr} :
    decode q = .ok i ↔ i.wellFormed = true ∧ encode i = q :=
  ⟨encodeOfDecode q i, fun ⟨hwf, hq⟩ => hq ▸ decodeOfEncode i hwf⟩

/-- Settles O15, by decoding each of the eight fixed requests. -/
theorem sampleRequestsDecode : Obligations.SampleRequestsDecode := by
  unfold Obligations.SampleRequestsDecode
  decide

/-- Settles O16: each arm of the opcode map but the last names an opcode that is not reserved. -/
theorem reservedOpcodesAreRejected : Obligations.ReservedOpcodesAreRejected := by
  unfold Obligations.ReservedOpcodesAreRejected
  intro op rest hop
  show decodeOp op rest = _
  unfold decodeOp
  split
  case h_18 => rfl
  all_goals omega

namespace Machine

/-! ### One step, by what its request decodes to -/

/-- With no request pending nothing happens (rule R268). -/
theorem step_of_idle {s : State} (h : s.inbox = []) : step s = .next s := by
  rw [step, State.takeRequest_nil h]

/-- A request that decodes is performed with it taken off the port (rule R100). -/
theorem step_of_decode_ok {s : State} {q : List Byte} {rest : List (List Byte)} {i : Instr}
    (h : s.inbox = q :: rest) (hq : decode q = .ok i) : step s = exec i { s with inbox := rest } := by
  simp only [step, State.takeRequest_cons h, hq]

/-- A request that does not decode is answered BadRequest (rule R107). -/
theorem step_of_decode_error {s : State} {q : List Byte} {rest : List (List Byte)} {e : BadFrame}
    (h : s.inbox = q :: rest) (hq : decode q = .error e) :
    step s = .next (({ s with inbox := rest } : State).raise .badRequest) := by
  simp only [step, State.takeRequest_cons h, hq]

/-- Everything a step can do. -/
theorem step_cases (s : State) :
    (s.inbox = [] ∧ step s = .next s)
      ∨ ∃ q rest, s.inbox = q :: rest
        ∧ ((∃ e, decode q = .error e
              ∧ step s = .next (({ s with inbox := rest } : State).raise .badRequest))
          ∨ ∃ i, decode q = .ok i ∧ step s = exec i { s with inbox := rest }) := by
  cases h : s.inbox with
  | nil => exact .inl ⟨rfl, step_of_idle h⟩
  | cons q rest =>
    refine .inr ⟨q, rest, rfl, ?_⟩
    cases hq : decode q with
    | error e => exact .inl ⟨e, rfl, step_of_decode_error h hq⟩
    | ok i => exact .inr ⟨i, rfl, step_of_decode_ok h hq⟩

/-- Settles O1: the two fields of the reset state. -/
theorem resetIsUnconfigured : Obligations.ResetIsUnconfigured := ⟨rfl, rfl⟩

/-- Settles O4. -/
theorem stepRunsDecodedCommand : Obligations.StepRunsDecodedCommand := by
  unfold Obligations.StepRunsDecodedCommand
  intro s q rest i hinbox hq
  exact step_of_decode_ok hinbox hq

/-- Settles O6. -/
theorem stepIdlesWithoutRequest : Obligations.StepIdlesWithoutRequest := by
  unfold Obligations.StepIdlesWithoutRequest
  exact fun s hinbox => step_of_idle hinbox

/-- Settles O5, by whether the request decodes; `decode_eq_ok_iff` says what that means in terms of
`encode`. -/
theorem stepAnswersMalformedRequest : Obligations.StepAnswersMalformedRequest := by
  unfold Obligations.StepAnswersMalformedRequest
  intro s q rest hinbox
  cases hq : decode q with
  | ok i =>
    obtain ⟨hwf, henc⟩ := decode_eq_ok_iff.mp hq
    exact .inl ⟨i, hwf, henc, step_of_decode_ok hinbox hq⟩
  | error e =>
    refine .inr ⟨?_, step_of_decode_error hinbox hq⟩
    rintro ⟨i, hi⟩
    rw [decode_eq_ok_iff.mpr hi] at hq
    cases hq

/-! ### The response to a request -/

/-- Every command ends in a next state: no arm of `exec` faults or is refused. -/
theorem exec_ends (i : Instr) (s : State) : ∃ t, exec i s = .next t := by
  cases i <;> exact ⟨_, rfl⟩

/-- An error status alone is a framed response (rule R101). -/
theorem responseFramed_status {k : Status} (hk : k ≠ .ok) : ResponseFramed [statusCode k] := by
  revert hk
  cases k <;> decide

/-- A response with status OK is framed (rule R101). -/
theorem responseFramed_ok (result : List Byte) : ResponseFramed (0x00#8 :: result) := .inl rfl

/-- Every command takes nothing off the port and gives exactly one framed response. -/
theorem exec_answers {i : Instr} {s t : State} (h : exec i s = .next t) :
    t.inbox = s.inbox ∧ ∃ r, t.outbox = s.outbox ++ [r] ∧ ResponseFramed r := by
  rcases exec_effect h with ⟨_, hk, rfl⟩ | ⟨_, rfl⟩ | ⟨_, _, _, _, _, _, rfl⟩ | ⟨_, _, rfl⟩
    | ⟨_, _, _, _, _, _, rfl⟩ | ⟨_, _, rfl⟩ | ⟨_, _, rfl⟩
  case inl => exact ⟨rfl, _, rfl, responseFramed_status hk⟩
  all_goals exact ⟨rfl, _, rfl, responseFramed_ok _⟩

/-- Settles O7: a malformed request gets the one status byte, a command its one response. -/
theorem oneFramedResponsePerRequest : Obligations.OneFramedResponsePerRequest := by
  unfold Obligations.OneFramedResponsePerRequest
  intro s q rest hinbox
  cases hq : decode q with
  | error e =>
    exact ⟨_, _, step_of_decode_error hinbox hq, rfl, rfl, responseFramed_status (by decide)⟩
  | ok i =>
    obtain ⟨t, ht⟩ := exec_ends i { s with inbox := rest }
    obtain ⟨hport, r, hout, hframed⟩ := exec_answers ht
    exact ⟨t, r, (step_of_decode_ok hinbox hq).trans ht, hport, hout, hframed⟩

end Machine

end Sys2Proof
end

section
/-! Proofs about single commands (10_state.md, 42_digester.md, 45_inspection.md, 60_exceptions.md): which
registers each writes, when it raises, and that the codec, scorer and mixer commands keep no state. -/

namespace Sys2Proof.Machine

/-! ### How a command ends, by the value that decides it -/

theorem exec_unpack_of_some {B : List Byte} {D : DigestValue} (s : State) (h : unpackBytes B = some D) :
    exec (.unpack B) s = .next (({ s with dv := D, dvValid := true } : State).respond []) := by
  simp only [exec, execUnpack, h, loadDigest, complete_ok]

theorem exec_unpack_of_none {B : List Byte} (s : State) (h : unpackBytes B = none) :
    exec (.unpack B) s = .next (s.raise .badFormat) := by
  simp only [exec, execUnpack, h, loadDigest, complete_error]

theorem exec_parse_of_some {s : State} {S : List Byte} {D : DigestValue}
    (h : parseDigest s.build.hexLowerOk S = some D) :
    exec (.parse S) s = .next (({ s with dv := D, dvValid := true } : State).respond []) := by
  simp only [exec, execParse, h, loadDigest, complete_ok]

theorem exec_parse_of_none {s : State} {S : List Byte} (h : parseDigest s.build.hexLowerOk S = none) :
    exec (.parse S) s = .next (s.raise .badFormat) := by
  simp only [exec, execParse, h, loadDigest, complete_error]

theorem exec_unhex_of_some {s : State} {S B : List Byte} (h : hexDec s.build.hexLowerOk S = some B) :
    exec (.unhex S) s = .next (s.respond (lenPrefixed B)) := by
  simp only [exec, execUnhex, h, complete_ok]

theorem exec_unhex_of_none {s : State} {S : List Byte} (h : hexDec s.build.hexLowerOk S = none) :
    exec (.unhex S) s = .next (s.raise .badFormat) := by
  simp only [exec, execUnhex, h, complete_error]

theorem exec_score_of_ok {A B : List Byte} {l : Bool} {n : Nat} (s : State)
    (h : scorePacked A B l = .ok n) :
    exec (.score A B l) s = .next (s.respond (i32Result (BitVec.ofNat 32 n))) := by
  simp only [exec, execScore, h, complete_ok]

theorem exec_score_of_error {A B : List Byte} {l : Bool} {k : Status} (s : State)
    (h : scorePacked A B l = .error k) : exec (.score A B l) s = .next (s.raise k) := by
  simp only [exec, execScore, h, complete_error]

theorem exec_pack_of_valid {s : State} (h : s.dvValid = true) :
    exec .pack s = .next (s.respond (lenPrefixed (packBytes s.dv))) := by
  simp only [exec, execPack, h, if_true, complete_ok]

theorem exec_pack_of_invalid {s : State} (h : s.dvValid = false) :
    exec .pack s = .next (s.raise .undefinedUse) := by
  simp only [exec, execPack, h, Bool.false_eq_true, if_false, complete_error]

theorem exec_cfg_of_some {wraw : BitVec 4} {craw bsel : BitVec 2} {g : Cfg} (s : State)
    (h : cfgTriple wraw craw bsel = some g) :
    exec (.cfg wraw craw bsel) s = .next (({ s with cfg := g } : State).emptied.respond []) := by
  simp only [exec, execCfg, h, complete_ok]

theorem exec_cfg_of_none {wraw : BitVec 4} {craw bsel : BitVec 2} (s : State)
    (h : cfgTriple wraw craw bsel = none) :
    exec (.cfg wraw craw bsel) s = .next (s.raise .invalidParameter) := by
  simp only [exec, execCfg, h, complete_error]

theorem exec_rst_of_configured {s : State} (h : s.mode ≠ .unconf) :
    exec .rst s = .next (s.emptied.respond []) := by
  simp only [exec, execRst, h, if_false, complete_ok]

theorem exec_fin_of_active {s : State} (h : s.mode = .active) :
    exec .fin s = .next (s.finalized.respond []) := by
  simp only [exec, execFin, h, ne_eq, not_true, if_false, complete_ok, State.finalized]

theorem exec_fin_of_inactive {s : State} (h : s.mode ≠ .active) :
    exec .fin s = .next (s.raise .undefinedUse) := by
  simp only [exec, execFin, h, ne_eq, not_false_eq_true, if_true, complete_error]

/-- UPD raises UndefinedUse outside ACTIVE, at the stream limit, and where no digester comes of the byte
(rules R162, R170). -/
theorem exec_upd_of_raises {s : State} {x : Byte}
    (h : s.mode ≠ .active ∨ s.dig.count.toNat = countLimit ∨ absorb s.cfg x s.dig = none) :
    exec (.upd x) s = .next (s.raise .undefinedUse) := by
  rcases execUpd_cases x s with ⟨hmode, hcount, d, habsorb, -⟩ | ⟨-, e⟩
  · simp [hmode, hcount, habsorb] at h
  · exact e

/-! ### Who writes which register -/

/-- Only CFG, RST and FIN write `mode` (rule R32). -/
theorem exec_keeps_mode {i : Instr} {s t : State} (h : exec i s = .next t)
    (hcfg : ∀ w c b, i ≠ .cfg w c b) (hrst : i ≠ .rst) (hfin : i ≠ .fin) : t.mode = s.mode := by
  rcases exec_effect h with ⟨_, _, rfl⟩ | ⟨_, rfl⟩ | ⟨w, c, b, _, rfl, _⟩ | ⟨rfl, _⟩
    | ⟨_, _, _, _, _, _, rfl⟩ | ⟨rfl, _⟩ | ⟨_, _, rfl⟩
  case inr.inr.inl => exact absurd rfl (hcfg w c b)
  case inr.inr.inr.inl => exact absurd rfl hrst
  case inr.inr.inr.inr.inr.inl => exact absurd rfl hfin
  all_goals rfl

/-- `mode` after CFG (rule R32). -/
theorem exec_cfg_mode {w : BitVec 4} {c b : BitVec 2} {s t : State}
    (h : exec (.cfg w c b) s = .next t) :
    t.mode = if cfgTriple w c b = none then s.mode else .active := by
  rcases execCfg_cases w c b s with ⟨g, hg, e⟩ | ⟨hg, e⟩ <;>
    obtain rfl := Host.Outcome.next.inj (e.symm.trans h) <;> simp [hg]

/-- `mode` after RST (rule R32). -/
theorem exec_rst_mode {s t : State} (h : exec .rst s = .next t) :
    t.mode = if s.mode = .unconf then .unconf else .active := by
  rcases execRst_cases s with ⟨hm, e⟩ | ⟨hm, e⟩ <;>
    obtain rfl := Host.Outcome.next.inj (e.symm.trans h) <;> simp [hm]

/-- `mode` after FIN (rule R32). -/
theorem exec_fin_mode {s t : State} (h : exec .fin s = .next t) :
    t.mode = if s.mode = .active then .spent else s.mode := by
  rcases execFin_cases s with ⟨hm, e⟩ | ⟨hm, e⟩ <;>
    obtain rfl := Host.Outcome.next.inj (e.symm.trans h) <;> simp [hm, State.finalized]

/-- Settles O9: the three commands of the table one by one, the other rows by `exec_keeps_mode`. -/
theorem modeFollowsTransitionTable : Obligations.ModeFollowsTransitionTable := by
  unfold Obligations.ModeFollowsTransitionTable
  intro i s t h
  cases i with
  | cfg w c b => exact exec_cfg_mode h
  | rst =>
    have hmode := exec_rst_mode h
    cases hs : s.mode <;> simpa [hs] using hmode
  | fin =>
    have hmode := exec_fin_mode h
    cases hs : s.mode <;> simpa [hs] using hmode
  | upd | pack | unpack | hex | hext1 | unhex | score | parse | lcap | phash | dbgb | dbgc | dbgn
  | dbgl => exact exec_keeps_mode h (by simp) (by simp) (by simp)

/-- Settles O10, effect by effect: a raise and a plain result write no register. -/
theorem registersHaveTheirWriters : Obligations.RegistersHaveTheirWriters := by
  unfold Obligations.RegistersHaveTheirWriters
  intro i s t h
  rcases exec_effect h with ⟨_, _, rfl⟩ | ⟨_, rfl⟩ | ⟨w, c, b, _, rfl, _, rfl⟩ | ⟨rfl, _, rfl⟩
    | ⟨_, _, rfl, _, _, _, rfl⟩ | ⟨rfl, _, rfl⟩ | ⟨_, hwriter, rfl⟩
  case inr.inr.inl =>
    exact ⟨fun hcfg => absurd rfl (hcfg w c b), fun _ _ _ => ⟨rfl, rfl⟩, id, rfl⟩
  case inr.inr.inr.inr.inr.inl =>
    exact ⟨fun _ => rfl, fun hfin => absurd rfl hfin, fun _ => rfl, rfl⟩
  case inr.inr.inr.inr.inr.inr =>
    refine ⟨fun _ => rfl, fun _ hunpack hparse => ?_, fun _ => rfl, rfl⟩
    rcases hwriter with ⟨B, rfl, _⟩ | ⟨S, rfl, _⟩
    · exact absurd rfl (hunpack B)
    · exact absurd rfl (hparse S)
  all_goals exact ⟨fun _ => rfl, fun _ _ _ => ⟨rfl, rfl⟩, id, rfl⟩

/-- Settles O11, effect by effect. -/
theorem digesterHasItsWriters : Obligations.DigesterHasItsWriters := by
  unfold Obligations.DigesterHasItsWriters
  intro i s t h hcfg hupd hrst hfin
  rcases exec_effect h with ⟨_, _, rfl⟩ | ⟨_, rfl⟩ | ⟨w, c, b, _, rfl, _⟩ | ⟨rfl, _⟩
    | ⟨x, _, rfl, _⟩ | ⟨rfl, _⟩ | ⟨_, _, rfl⟩
  case inr.inr.inl => exact absurd rfl (hcfg w c b)
  case inr.inr.inr.inl => exact absurd rfl hrst
  case inr.inr.inr.inr.inl => exact absurd rfl (hupd x)
  case inr.inr.inr.inr.inr.inl => exact absurd rfl hfin
  all_goals rfl

/-! ### CFG and the commands that raise UndefinedUse -/

/-- A two-bit field is told by its number. -/
theorem twoBits_toNat (v : BitVec 2) :
    (v.toNat = 0 ↔ v = 0#2) ∧ (v.toNat = 1 ↔ v = 1#2) ∧ (v.toNat = 3 ↔ v = 3#2) := by
  revert v
  decide

/-- Settles O17: the triple is valid, so CFG loads it. -/
theorem cfgLoadsValidTriple : Obligations.CfgLoadsValidTriple := by
  unfold Obligations.CfgLoadsValidTriple
  intro s wraw craw bsel h4 h8 hc hb hbc
  obtain ⟨b0, b1, b3⟩ := twoBits_toNat bsel
  obtain ⟨-, c1, c3⟩ := twoBits_toNat craw
  have htriple := cfgTriple_of_valid h4 h8 (hc.imp c1.mpr c3.mpr) (mt b3.mp hb)
    (fun h => hbc ⟨b0.mp h.1, c3.mp h.2⟩)
  simp only [b0, b1] at htriple
  exact exec_cfg_of_some s htriple

/-- Settles O18: no triple is valid under any of the causes, so CFG raises. -/
theorem cfgRejectsInvalidTriple : Obligations.CfgRejectsInvalidTriple := by
  unfold Obligations.CfgRejectsInvalidTriple
  intro s wraw craw bsel hcause
  refine exec_cfg_of_none s (Option.eq_none_iff_forall_ne_some.mpr fun g hg => ?_)
  obtain ⟨h4, h8, hc, hb, hbc, -⟩ := cfgTriple_eq_some hg
  obtain ⟨b0, -, b3⟩ := twoBits_toNat bsel
  obtain ⟨-, c1, c3⟩ := twoBits_toNat craw
  rw [c1, c3] at hc
  rw [b0, c3] at hbc
  rw [Ne, b3] at hb
  rcases hcause with h | h | ⟨h1, h3⟩ | h | h
  · omega
  · omega
  · exact hc.elim h1 h3
  · exact hb h
  · exact hbc h

/-- Settles O20, from what decides how each of the three commands ends. -/
theorem undefinedUseIsAnswered : Obligations.UndefinedUseIsAnswered := by
  unfold Obligations.UndefinedUseIsAnswered
  intro s
  exact ⟨fun hmode _ => exec_upd_of_raises (.inl hmode), exec_fin_of_inactive, exec_pack_of_invalid⟩

/-! ### The inspection reads -/

/-- An inspection read in a build that has it, in ACTIVE (rule R250). -/
theorem complete_inspect_of_active {s : State} (hbuild : s.build.debugEn = true)
    (hmode : s.mode = .active) (result : List Byte) :
    complete s (inspect s result) = .next (s.respond result) := by
  rcases complete_inspect_cases s result with ⟨h, -⟩ | ⟨-, h, -⟩ | ⟨-, -, e⟩
  · rw [hbuild] at h
    cases h
  · exact absurd hmode h
  · exact e

/-- The length-prefixed form of the first `n` of a few bytes (rule R102). -/
theorem lenPrefixed_take {X : List Byte} {n : Nat} (hn : n ≤ X.length) (hX : n < 256) :
    lenPrefixed (X.take n) = 0x00#8 :: BitVec.ofNat 8 n :: X.take n := by
  rw [lenPrefixed_eq, List.length_take, min_eq_left hn, Nat.div_eq_of_lt hX, Nat.mod_eq_of_lt hX]

/-- Settles O57: each read answers its register; a valid configuration keeps the lengths small. -/
theorem inspectionReadsInActive : Obligations.InspectionReadsInActive := by
  unfold Obligations.InspectionReadsInActive
  intro s hbuild hmode hvalid
  obtain ⟨⟨-, hw⟩, -, hc, -⟩ := hvalid
  refine ⟨fun i => ?_, ?_, ?_, ?_⟩
  · rw [exec_dbgb, complete_inspect_of_active hbuild hmode]
    rfl
  · rw [exec_dbgc, complete_inspect_of_active hbuild hmode,
      lenPrefixed_take (by rw [Vector.length_toList]; omega) (by omega)]
    rfl
  · rw [exec_dbgn, complete_inspect_of_active hbuild hmode]
    rfl
  · rw [exec_dbgl, complete_inspect_of_active hbuild hmode,
      lenPrefixed_take (by rw [Vector.length_toList]; omega) (by omega)]
    rfl

/-- The four inspection commands are inspection reads. -/
theorem exec_of_inspection {i : Instr} (s : State)
    (hi : (∃ j, i = .dbgb j) ∨ i = .dbgc ∨ i = .dbgn ∨ i = .dbgl) :
    ∃ result, exec i s = complete s (inspect s result) := by
  rcases hi with ⟨j, rfl⟩ | rfl | rfl | rfl
  · exact ⟨_, exec_dbgb j s⟩
  · exact ⟨_, exec_dbgc s⟩
  · exact ⟨_, exec_dbgn s⟩
  · exact ⟨_, exec_dbgl s⟩

/-- Settles O58, by the ways an inspection read can end. -/
theorem inspectionReadsTurnedAway : Obligations.InspectionReadsTurnedAway := by
  unfold Obligations.InspectionReadsTurnedAway
  intro s i hi
  obtain ⟨result, hexec⟩ := exec_of_inspection s hi
  rw [hexec]
  rcases complete_inspect_cases s result with ⟨hb, e⟩ | ⟨hb, hm, e⟩ | ⟨hb, hm, -⟩
  · exact ⟨fun _ => e, fun h => by simp [hb] at h⟩
  · exact ⟨fun h => by simp [hb] at h, fun _ _ => e⟩
  · exact ⟨fun h => by simp [hb] at h, fun _ h => absurd hm h⟩

/-! ### Commands without state -/

/-- Settles O59: what each of these commands answers is made of its operands, and for UNHEX of the build. -/
theorem statelessCommandsAreFunctions : Obligations.StatelessCommandsAreFunctions := by
  unfold Obligations.StatelessCommandsAreFunctions
  intro i hi build
  rcases hi with ⟨B, rfl⟩ | ⟨B, rfl⟩ | ⟨S, rfl⟩ | ⟨A, B, l, rfl⟩ | ⟨v, rfl⟩ | ⟨X, rfl⟩
  · exact ⟨_, fun s _ => exec_hex B s⟩
  · exact ⟨_, fun s _ => exec_hext1 B s⟩
  · cases hB : hexDec build.hexLowerOk S with
    | none => exact ⟨_, fun s hs => exec_unhex_of_none (hs ▸ hB)⟩
    | some B => exact ⟨_, fun s hs => exec_unhex_of_some (hs ▸ hB)⟩
  · cases hscore : scorePacked A B l with
    | error k => exact ⟨_, fun s _ => exec_score_of_error s hscore⟩
    | ok n => exact ⟨_, fun s _ => exec_score_of_ok s hscore⟩
  · exact ⟨_, fun s _ => exec_lcap v s⟩
  · exact ⟨_, fun s _ => exec_phash X s⟩

end Sys2Proof.Machine
end

section
/-! Proofs about what every step keeps: the invariant of the block (10_state.md, 42_digester.md), and that
registers the spec leaves unspecified never show (rules R30, R38, R293). -/

namespace Sys2Proof.Machine

/-! ### The sum of the counters -/

theorem bucketTotal_eq_sum (bucket : Vector U64 256) :
    bucketTotal bucket = ∑ k : Fin 256, bucket[k].toNat := by
  have hlist : bucket.toList.map BitVec.toNat = List.ofFn fun k : Fin 256 => bucket[k].toNat := by
    refine List.ext_getElem ?_ fun k _ _ => ?_
    · rw [List.length_map, Vector.length_toList, List.length_ofFn]
    · rw [List.getElem_map, List.getElem_ofFn, Vector.getElem_toList]
      rfl
  rw [bucketTotal, hlist, List.sum_ofFn]

/-- One increment adds 1 to the sum. -/
theorem bucketTotal_increment {bucket bucket' : Vector U64 256} {i : Byte}
    (h : increment bucket i = some bucket') : bucketTotal bucket' = bucketTotal bucket + 1 := by
  have hone : ∑ k : Fin 256, (if i.toNat = k.val then 1 else 0) = 1 := by
    rw [Finset.sum_eq_single (⟨i.toNat, i.isLt⟩ : Fin 256)]
    · simp
    · intro k _ hk
      exact if_neg fun e => hk (Fin.ext e.symm)
    · simp
  calc bucketTotal bucket'
      = ∑ k : Fin 256, (bucket[k].toNat + if i.toNat = k.val then 1 else 0) := by
        rw [bucketTotal_eq_sum]
        exact Finset.sum_congr rfl fun k _ => increment_getElem h k.val k.isLt
    _ = bucketTotal bucket + 1 := by rw [Finset.sum_add_distrib, hone, bucketTotal_eq_sum]

/-- The increments of one byte add their number to the sum. -/
theorem bucketTotal_incrementAll {bucket bucket' : Vector U64 256} {is : List Byte}
    (h : incrementAll bucket is = some bucket') :
    bucketTotal bucket' = bucketTotal bucket + is.length := by
  induction is generalizing bucket with
  | nil =>
    obtain rfl : bucket = bucket' := by simpa [incrementAll] using h
    rfl
  | cons i is ih =>
    unfold incrementAll at h
    split at h
    · cases h
    · next b1 h1 =>
      rw [ih h, bucketTotal_increment h1, List.length_cons]
      omega

theorem bucketTotal_empty : bucketTotal emptyDigester.bucket = 0 := by
  rw [bucketTotal_eq_sum]
  exact Finset.sum_eq_zero fun k _ => by
    show (Vector.replicate 256 0#64)[k.val].toNat = 0
    rw [Vector.getElem_replicate]
    rfl

/-! ### The shapes of digest values -/

/-- Only a valid triple is loaded by CFG (rules R21, R160). -/
theorem valid_of_cfgTriple {wraw : BitVec 4} {craw bsel : BitVec 2} {g : Cfg}
    (h : cfgTriple wraw craw bsel = some g) : g.Valid := by
  obtain ⟨h4, h8, hc, hb, hbc, rfl⟩ := cfgTriple_eq_some h
  refine ⟨⟨h4, h8⟩, ?_, hc, ?_⟩
  · show _ ∨ _ ∨ _
    split_ifs <;> simp
  · rintro ⟨h48, h3⟩
    refine hbc ⟨?_, h3⟩
    by_contra h0
    simp only [h0, if_false] at h48
    split_ifs at h48 <;> cases h48

/-- FIN with a valid configuration computes one of the five shapes (rules R34, R172). -/
theorem finalize_shaped {g : Cfg} (hg : g.Valid) (d : Digester) : (finalize g d).Shaped := by
  obtain ⟨-, hb, hc, hbc⟩ := hg
  have hlen : (finalize g d).checksum.length = min g.c 3 ∧ (finalize g d).body.length = g.b / 4 := by
    simp [finalize]
  rw [DigestValue.Shaped, hlen.1, hlen.2]
  rcases hb with h | h | h <;> rcases hc with h' | h' <;> simp [h, h'] at hbc ⊢

/-- Everything unpacking can give: the fields rule R201 reads from a packed length. -/
theorem unpackBytes_eq_some {B : List Byte} {D : DigestValue} (h : unpackBytes B = some D) :
    ∃ c, (B.length, c) ∈ [(15, 1), (35, 1), (37, 3), (67, 1), (69, 3)]
      ∧ D = { checksum := (B.take c).map swap
              lvalue := swap (B.getD c 0#8)
              q1 := highNibble (B.getD (c + 1) 0#8)
              q2 := lowNibble (B.getD (c + 1) 0#8)
              body := (B.drop (c + 2)).reverse } := by
  have hlen : B.length ∈ [15, 35, 37, 67, 69] := by
    by_contra hc
    rw [unpackBytes_eq_none.mpr hc] at h
    cases h
  obtain ⟨c, hc⟩ := exists_checksum_length hlen
  exact ⟨c, hc, Option.some.inj (h.symm.trans (unpackBytes_of_length hc))⟩

/-- Unpacking gives one of the five shapes (rules R34, R201). -/
theorem unpackBytes_shaped {B : List Byte} {D : DigestValue} (h : unpackBytes B = some D) :
    D.Shaped := by
  obtain ⟨c, hc, rfl⟩ := unpackBytes_eq_some h
  simp only [List.mem_cons, Prod.mk.injEq, List.not_mem_nil, or_false] at hc
  rcases hc with ⟨hL, rfl⟩ | ⟨hL, rfl⟩ | ⟨hL, rfl⟩ | ⟨hL, rfl⟩ | ⟨hL, rfl⟩ <;>
    simp [DigestValue.Shaped, hL]

/-- Parsing gives one of the five shapes (rule R205). -/
theorem parseDigest_shaped {lowerOk : Bool} {S : List Byte} {D : DigestValue}
    (h : parseDigest lowerOk S = some D) : D.Shaped := by
  unfold parseDigest at h
  split at h
  · cases h
  · exact unpackBytes_shaped h

/-! ### The invariant under each effect of a command -/

/-- The invariant says nothing of the port. -/
theorem State.Inv.onPort {s : State} (h : s.Inv) (inbox outbox : List (List Byte)) :
    ({ s with inbox := inbox, outbox := outbox } : State).Inv :=
  ⟨h.cfg_valid, h.dv_shaped, h.count_bound, h.upper_checksum, h.warmup_checksum, h.histogram_total,
    h.lag_unwritten⟩

theorem State.Inv.answer {s : State} (h : s.Inv) (r : List Byte) : (s.answer r).Inv := h.onPort _ _

/-- The empty digester with a valid configuration meets the invariant. -/
theorem State.Inv.emptied {s : State} (hcfg : s.cfg.Valid) (hdv : s.dvValid = true → s.dv.Shaped) :
    s.emptied.Inv where
  cfg_valid _ := hcfg
  dv_shaped := hdv
  count_bound _ := Nat.zero_le _
  upper_checksum _ _ := ⟨rfl, rfl⟩
  warmup_checksum _ _ := rfl
  histogram_total _ := by
    have hw : 4 ≤ s.cfg.w := hcfg.1.1
    have hzero : 0 + 1 - s.cfg.w = 0 := by omega
    show bucketTotal emptyDigester.bucket = pairCount s.cfg.w * (0 + 1 - s.cfg.w)
    rw [bucketTotal_empty, hzero, Nat.mul_zero]
  lag_unwritten _ j _ := Vector.getElem_replicate j.isLt

/-- Loading a digest value of one of the five shapes keeps the invariant. -/
theorem State.Inv.loaded {s : State} (h : s.Inv) {D : DigestValue} (hD : D.Shaped) :
    ({ s with dv := D, dvValid := true } : State).Inv :=
  ⟨h.cfg_valid, fun _ => hD, h.count_bound, h.upper_checksum, h.warmup_checksum, h.histogram_total,
    h.lag_unwritten⟩

/-- FIN keeps the invariant: in SPENT only the configuration and `DV` are spoken of. -/
theorem State.Inv.finalized {s : State} (h : s.Inv) (hmode : s.mode = .active) : s.finalized.Inv where
  cfg_valid _ := h.cfg_valid (by simp [hmode])
  dv_shaped _ := finalize_shaped (h.cfg_valid (by simp [hmode])) _
  count_bound hc := by cases hc
  upper_checksum hc := by cases hc
  warmup_checksum hc := by cases hc
  histogram_total hc := by cases hc
  lag_unwritten hc := by cases hc

/-- After a shift, an entry of `lag` that no byte has reached comes from one that no byte had reached. -/
theorem shiftLag_unwritten {lag : Vector Byte 7} {n : Nat} (x : Byte)
    (h : ∀ j : Fin 7, n ≤ j.val → lag[j] = 0#8) (j : Fin 7) (hj : n + 1 ≤ j.val) :
    (shiftLag x lag)[j] = 0#8 := by
  match j with
  | 0 => simp at hj
  | ⟨i + 1, hi⟩ =>
    have hprev : (shiftLag x lag)[i + 1] = lag[i] := by
      have hi : i < 6 := by omega
      unfold shiftLag
      interval_cases i <;> rfl
    exact hprev.trans (h ⟨i, by omega⟩ (by simp at hj; omega))

/-- The count below the stream limit does not wrap. -/
theorem count_add_one {v : U64} (h : v.toNat ≤ countLimit) : (v + 1#64).toNat = v.toNat + 1 := by
  refine toNat_add_one fun hv => ?_
  rw [hv, countLimit, BitVec.toNat_allOnes] at h
  omega

/-- With a 1-byte checksum a running byte leaves the upper checksum registers (rule R165). -/
theorem nextChecksum_upper {c : Nat} (hc : c = 1) (l0 l1 : Byte) (cs : Vector Byte 3) :
    (nextChecksum c l0 l1 cs)[1] = cs[1] ∧ (nextChecksum c l0 l1 cs)[2] = cs[2] := by
  obtain ⟨k1, k2, heq, hupper⟩ := nextChecksum_eq c l0 l1 cs
  obtain ⟨rfl, rfl⟩ := hupper (by omega)
  rw [heq]
  exact ⟨rfl, rfl⟩

/-- Absorbing a byte below the stream limit keeps the invariant. -/
theorem State.Inv.absorbed {s : State} (h : s.Inv) {x : Byte} {d : Digester} (hmode : s.mode = .active)
    (hcount : s.dig.count.toNat ≠ countLimit) (hd : absorb s.cfg x s.dig = some d) :
    ({ s with dig := d } : State).Inv := by
  have hbound := h.count_bound hmode
  have hnext := count_add_one hbound
  have htotal := h.histogram_total hmode
  have hlag := fun j hj => shiftLag_unwritten x (h.lag_unwritten hmode) j hj
  rcases absorb_cases s.cfg x s.dig with ⟨-, -, hnone⟩ | ⟨hrun, bucket', hinc, hsome⟩ | ⟨hwarm, hsome⟩
  · rw [hnone] at hd
    cases hd
  · obtain rfl := Option.some.inj (hsome.symm.trans hd)
    refine ⟨h.cfg_valid, h.dv_shaped, fun _ => ?_, fun _ hc => ?_, fun _ hw => ?_, fun _ => ?_,
      fun _ j hj => hlag j (hnext ▸ hj)⟩
    · show (s.dig.count + 1#64).toNat ≤ countLimit
      omega
    · obtain ⟨h1, h2⟩ := nextChecksum_upper hc x s.dig.lag[0] s.dig.checksum
      obtain ⟨h1', h2'⟩ := h.upper_checksum hmode hc
      exact ⟨h1.trans h1', h2.trans h2'⟩
    · have hw : (s.dig.count + 1#64).toNat < s.cfg.w := hw
      omega
    · show bucketTotal bucket' = pairCount s.cfg.w * ((s.dig.count + 1#64).toNat + 1 - s.cfg.w)
      have hsucc : s.dig.count.toNat + 1 + 1 - s.cfg.w = s.dig.count.toNat + 1 - s.cfg.w + 1 := by
        omega
      rw [bucketTotal_incrementAll hinc, bucketIndices_length, htotal, hnext, hsucc, Nat.mul_succ]
  · obtain rfl := Option.some.inj (hsome.symm.trans hd)
    refine ⟨h.cfg_valid, h.dv_shaped, fun _ => ?_, fun _ hc => h.upper_checksum hmode hc,
      fun _ _ => h.warmup_checksum hmode (by omega), fun _ => ?_, fun _ j hj => hlag j (hnext ▸ hj)⟩
    · show (s.dig.count + 1#64).toNat ≤ countLimit
      omega
    · show bucketTotal s.dig.bucket = pairCount s.cfg.w * ((s.dig.count + 1#64).toNat + 1 - s.cfg.w)
      have hnone : s.dig.count.toNat + 1 + 1 - s.cfg.w = s.dig.count.toNat + 1 - s.cfg.w := by omega
      rw [htotal, hnext, hnone]

/-- Every command keeps the invariant. -/
theorem State.Inv.exec {i : Instr} {s t : State} (h : s.Inv) (hexec : exec i s = .next t) : t.Inv := by
  rcases exec_effect hexec with ⟨k, -, rfl⟩ | ⟨result, rfl⟩ | ⟨w, c, b, g, -, hg, rfl⟩
    | ⟨-, hmode, rfl⟩ | ⟨x, d, -, hmode, hcount, hd, rfl⟩ | ⟨-, hmode, rfl⟩ | ⟨D, hD, rfl⟩
  · exact h.answer _
  · exact h.answer _
  · exact (State.Inv.emptied (s := { s with cfg := g }) (valid_of_cfgTriple hg) h.dv_shaped).answer _
  · exact (State.Inv.emptied (h.cfg_valid hmode) h.dv_shaped).answer _
  · exact (h.absorbed hmode hcount hd).answer _
  · exact (h.finalized hmode).answer _
  · rcases hD with ⟨B, -, hB⟩ | ⟨S, -, hS⟩
    · exact (h.loaded (unpackBytes_shaped hB)).answer _
    · exact (h.loaded (parseDigest_shaped hS)).answer _

/-- Settles O3: idling and a malformed request touch only the port, and every command keeps the
invariant. -/
theorem stepKeepsInvariant : Obligations.StepKeepsInvariant := by
  unfold Obligations.StepKeepsInvariant
  intro s t h hstep
  rcases step_cases s with ⟨-, e⟩ | ⟨q, rest, -, ⟨_, -, e⟩ | ⟨i, -, e⟩⟩
  · obtain rfl := Host.Outcome.next.inj (e.symm.trans hstep)
    exact h
  · obtain rfl := Host.Outcome.next.inj (e.symm.trans hstep)
    exact h.onPort _ _
  · exact (h.onPort rest s.outbox).exec (e.symm.trans hstep)

/-- Settles O2: outside ACTIVE and before a digest value is written the invariant asks nothing. -/
theorem resetMeetsInvariant : Obligations.ResetMeetsInvariant where
  cfg_valid h := absurd rfl h
  dv_shaped h := by cases h
  count_bound h := by cases h
  upper_checksum h := by cases h
  warmup_checksum h := by cases h
  histogram_total h := by cases h
  lag_unwritten h := by cases h

/-! ### States no command can tell apart -/

theorem SameToHost.answer {s t : State} (h : SameToHost s t) (r : List Byte) :
    SameToHost (s.answer r) (t.answer r) :=
  ⟨h.mode, h.dvValid, h.build, h.inbox, congrArg (· ++ [r]) h.outbox, h.cfg, h.dig, h.dv⟩

theorem SameToHost.takenFrom {s t : State} (h : SameToHost s t) (rest : List (List Byte)) :
    SameToHost { s with inbox := rest } { t with inbox := rest } :=
  ⟨h.mode, h.dvValid, h.build, rfl, h.outbox, h.cfg, h.dig, h.dv⟩

/-- Emptying two digesters under one configuration. -/
theorem SameToHost.emptied {s t : State} (h : SameToHost s t) {g g' : Cfg} (hg : g = g') :
    SameToHost ({ s with cfg := g } : State).emptied ({ t with cfg := g' } : State).emptied :=
  ⟨rfl, h.dvValid, h.build, h.inbox, h.outbox, fun _ => hg, fun _ => rfl, h.dv⟩

theorem SameToHost.loaded {s t : State} (h : SameToHost s t) (D : DigestValue) :
    SameToHost { s with dv := D, dvValid := true } { t with dv := D, dvValid := true } :=
  ⟨h.mode, rfl, h.build, h.inbox, h.outbox, h.cfg, h.dig, fun _ => rfl⟩

theorem SameToHost.absorbed {s t : State} (h : SameToHost s t) (d : Digester) :
    SameToHost { s with dig := d } { t with dig := d } :=
  ⟨h.mode, h.dvValid, h.build, h.inbox, h.outbox, h.cfg, fun _ => rfl, h.dv⟩

/-- FIN in ACTIVE computes one digest value; the registers it leaves may differ (rule R182). -/
theorem SameToHost.finalized {s t : State} (h : SameToHost s t) (hmode : s.mode = .active) :
    SameToHost s.finalized t.finalized where
  mode := rfl
  dvValid := rfl
  build := h.build
  inbox := h.inbox
  outbox := h.outbox
  cfg _ := h.cfg (by simp [hmode])
  dig hc := by cases hc
  dv _ := by
    show finalize s.cfg s.dig = finalize t.cfg t.dig
    rw [h.cfg (by simp [hmode]), h.dig hmode]

/-- Two commands that end in states the host cannot tell apart. -/
def SameEnd (o o' : Host.Outcome State Fault Refusal) : Prop :=
  ∃ u v, o = .next u ∧ o' = .next v ∧ SameToHost u v

/-- Two inspection reads of one result, where the result counts. -/
theorem SameToHost.inspect {s t : State} (h : SameToHost s t) {r r' : List Byte}
    (hr : s.mode = .active → r = r') :
    SameEnd (complete s (inspect s r)) (complete t (inspect t r')) := by
  have hbuild : s.build.debugEn = t.build.debugEn := by rw [h.build]
  rcases complete_inspect_cases s r with ⟨hb, e⟩ | ⟨hb, hm, e⟩ | ⟨hb, hm, e⟩ <;>
    rcases complete_inspect_cases t r' with ⟨hb', e'⟩ | ⟨hb', hm', e'⟩ | ⟨hb', hm', e'⟩
  case inl.inl => exact ⟨_, _, e, e', h.answer _⟩
  case inr.inl.inr.inl => exact ⟨_, _, e, e', h.answer _⟩
  case inr.inr.inr.inr =>
    obtain rfl := hr hm
    exact ⟨_, _, e, e', h.answer _⟩
  case inr.inl.inr.inr => exact absurd (h.mode.trans hm') hm
  case inr.inr.inr.inl => exact absurd (h.mode.symm.trans hm) hm'
  all_goals simp [hb, hb'] at hbuild

/-- Every command sees the same in states the host cannot tell apart. -/
theorem SameToHost.exec {s t : State} (h : SameToHost s t) (i : Instr) :
    SameEnd (exec i s) (exec i t) := by
  cases i with
  | cfg wraw craw bsel =>
    cases hg : cfgTriple wraw craw bsel with
    | none => exact ⟨_, _, exec_cfg_of_none s hg, exec_cfg_of_none t hg, h.answer _⟩
    | some g =>
      exact ⟨_, _, exec_cfg_of_some s hg, exec_cfg_of_some t hg, (h.emptied rfl).answer _⟩
  | upd x =>
    rcases execUpd_cases x s with ⟨hmode, hcount, d, hd, e⟩ | ⟨hraise, e⟩
    · have hcfg := h.cfg (by simp [hmode])
      have hdig := h.dig hmode
      have e' := exec_upd_of_absorb (h.mode ▸ hmode) (hdig ▸ hcount) (hcfg ▸ hdig ▸ hd)
      exact ⟨_, _, e, e', (h.absorbed d).answer _⟩
    · refine ⟨_, _, e, exec_upd_of_raises ?_, h.answer _⟩
      by_cases hmode : s.mode = .active
      · exact h.mode ▸ h.dig hmode ▸ h.cfg (by simp [hmode]) ▸ hraise
      · exact .inl (h.mode ▸ hmode)
  | rst =>
    rcases execRst_cases s with ⟨hmode, e⟩ | ⟨hmode, e⟩
    · have e' := exec_rst_of_configured (h.mode ▸ hmode)
      exact ⟨_, _, e, e', (h.emptied (h.cfg hmode)).answer _⟩
    · rcases execRst_cases t with ⟨hmode', -⟩ | ⟨-, e'⟩
      · exact absurd (h.mode.symm.trans hmode) hmode'
      · exact ⟨_, _, e, e', h.answer _⟩
  | fin =>
    by_cases hmode : s.mode = .active
    · exact ⟨_, _, exec_fin_of_active hmode, exec_fin_of_active (h.mode ▸ hmode),
        (h.finalized hmode).answer _⟩
    · exact ⟨_, _, exec_fin_of_inactive hmode, exec_fin_of_inactive (h.mode ▸ hmode), h.answer _⟩
  | pack =>
    cases hv : s.dvValid with
    | false =>
      exact ⟨_, _, exec_pack_of_invalid hv, exec_pack_of_invalid (h.dvValid ▸ hv), h.answer _⟩
    | true =>
      refine ⟨_, _, exec_pack_of_valid hv, exec_pack_of_valid (h.dvValid ▸ hv), ?_⟩
      rw [h.dv hv]
      exact h.answer _
  | unpack B =>
    cases hD : unpackBytes B with
    | none => exact ⟨_, _, exec_unpack_of_none s hD, exec_unpack_of_none t hD, h.answer _⟩
    | some D => exact ⟨_, _, exec_unpack_of_some s hD, exec_unpack_of_some t hD, (h.loaded D).answer _⟩
  | parse S =>
    cases hD : parseDigest s.build.hexLowerOk S with
    | none => exact ⟨_, _, exec_parse_of_none hD, exec_parse_of_none (h.build ▸ hD), h.answer _⟩
    | some D =>
      exact ⟨_, _, exec_parse_of_some hD, exec_parse_of_some (h.build ▸ hD), (h.loaded D).answer _⟩
  | unhex S =>
    cases hB : hexDec s.build.hexLowerOk S with
    | none => exact ⟨_, _, exec_unhex_of_none hB, exec_unhex_of_none (h.build ▸ hB), h.answer _⟩
    | some B => exact ⟨_, _, exec_unhex_of_some hB, exec_unhex_of_some (h.build ▸ hB), h.answer _⟩
  | score A B l =>
    cases hn : scorePacked A B l with
    | error k => exact ⟨_, _, exec_score_of_error s hn, exec_score_of_error t hn, h.answer _⟩
    | ok n => exact ⟨_, _, exec_score_of_ok s hn, exec_score_of_ok t hn, h.answer _⟩
  | hex B => exact ⟨_, _, exec_hex B s, exec_hex B t, h.answer _⟩
  | hext1 B => exact ⟨_, _, exec_hext1 B s, exec_hext1 B t, h.answer _⟩
  | lcap v => exact ⟨_, _, exec_lcap v s, exec_lcap v t, h.answer _⟩
  | phash X => exact ⟨_, _, exec_phash X s, exec_phash X t, h.answer _⟩
  | dbgb j => exact h.inspect fun hmode => by rw [h.dig hmode]
  | dbgc => exact h.inspect fun hmode => by rw [h.dig hmode, h.cfg (by simp [hmode])]
  | dbgn => exact h.inspect fun hmode => by rw [h.dig hmode]
  | dbgl => exact h.inspect fun hmode => by rw [h.dig hmode, h.cfg (by simp [hmode])]

/-- Settles O12: the two steps take one and the same request, and its command sees the same. -/
theorem unspecifiedRegistersNeverShow : Obligations.UnspecifiedRegistersNeverShow := by
  unfold Obligations.UnspecifiedRegistersNeverShow
  intro s t s' t' h hs ht
  cases hinbox : s.inbox with
  | nil =>
    obtain rfl := Host.Outcome.next.inj ((step_of_idle hinbox).symm.trans hs)
    obtain rfl := Host.Outcome.next.inj ((step_of_idle (h.inbox ▸ hinbox)).symm.trans ht)
    exact h
  | cons q rest =>
    have hinbox' : t.inbox = q :: rest := h.inbox ▸ hinbox
    cases hq : decode q with
    | error e =>
      obtain rfl := Host.Outcome.next.inj ((step_of_decode_error hinbox hq).symm.trans hs)
      obtain rfl := Host.Outcome.next.inj ((step_of_decode_error hinbox' hq).symm.trans ht)
      exact (h.takenFrom rest).answer _
    | ok i =>
      obtain ⟨u, v, hu, hv, hsame⟩ := (h.takenFrom rest).exec i
      obtain rfl := Host.Outcome.next.inj (hu.symm.trans ((step_of_decode_ok hinbox hq).symm.trans hs))
      obtain rfl := Host.Outcome.next.inj (hv.symm.trans ((step_of_decode_ok hinbox' hq).symm.trans ht))
      exact hsame

end Sys2Proof.Machine
end

section
/-! Proofs about the ROMs and their functions: the Pearson table is a permutation and the mixers are
bijections (40_pearson.md), the laws of the length code (41_length_quantizer.md), the pair table
(42_digester.md), and the algorithm names (30_encoding.md). -/

namespace Sys2Proof.Machine

/-! ### The Pearson table

That all 256 values occur is checked in one pass over the table, as an equation of bit masks. -/

theorem pearsonTable_length : pearsonTable.length = 256 := by decide +kernel

/-- The entries of a list of bytes as one number, bit `y` standing for the value `y`. -/
def valueMask (bs : List Byte) : Nat := bs.foldr (fun v mask => 2 ^ v.toNat ||| mask) 0

theorem testBit_valueMask (bs : List Byte) (y : Byte) :
    (valueMask bs).testBit y.toNat = true ↔ y ∈ bs := by
  induction bs with
  | nil => simp [valueMask]
  | cons v bs ih =>
    rw [valueMask, List.foldr_cons, Nat.testBit_or, Bool.or_eq_true, Nat.testBit_two_pow,
      decide_eq_true_eq, List.mem_cons, ← ih, ← BitVec.toNat_inj, eq_comm]
    rfl

theorem valueMask_pearsonTable : valueMask pearsonTable = 2 ^ 256 - 1 := by decide +kernel

theorem mem_pearsonTable (y : Byte) : y ∈ pearsonTable := by
  rw [← testBit_valueMask, valueMask_pearsonTable, Nat.testBit_two_pow_sub_one]
  exact decide_eq_true y.isLt

theorem pearson_surjective : Function.Surjective pearson := by
  intro y
  obtain ⟨n, hn, hy⟩ := List.mem_iff_getElem.mp (mem_pearsonTable y)
  have hlt : n < 256 := pearsonTable_length ▸ hn
  refine ⟨BitVec.ofNat 8 n, ?_⟩
  rw [pearson, BitVec.toNat_ofNat, Nat.mod_eq_of_lt hlt, List.getD_eq_getElem _ _ hn, hy]

/-- Every byte value occurs, so none of 256 values occurs twice. -/
theorem pearson_bijective : Function.Bijective pearson :=
  have : Finite Byte := Finite.of_injective BitVec.toFin fun _ _ => BitVec.eq_of_toFin_eq
  Finite.surjective_iff_bijective.mp pearson_surjective

/-- Settles O51. -/
theorem pearsonIsPermutation : Obligations.PearsonIsPermutation := by
  unfold Obligations.PearsonIsPermutation
  exact ⟨pearsonTable_length, pearson_bijective.existsUnique⟩

/-! ### The mixing functions -/

theorem xor_left_bijective (a : Byte) : Function.Bijective (fun x : Byte => a ^^^ x) :=
  Function.Involutive.bijective fun x => by simp

/-- One step of the fold is a bijection in the byte. -/
theorem foldStep_byte_bijective (a : Byte) : Function.Bijective (fun x => pearson (a ^^^ x)) :=
  pearson_bijective.comp (xor_left_bijective a)

/-- One step of the fold is a bijection in the accumulator. -/
theorem foldStep_accumulator_bijective (a : Byte) : Function.Bijective (fun h => pearson (h ^^^ a)) := by
  simp only [BitVec.xor_comm _ a]
  exact foldStep_byte_bijective a

/-- The steps of the fold, one after another, are a bijection in the accumulator. -/
theorem fold_bijective (Y : List Byte) :
    Function.Bijective fun h : Byte => Y.foldl (fun h x => pearson (h ^^^ x)) h := by
  induction Y with
  | nil => exact Function.bijective_id
  | cons y Y ih => exact ih.comp (foldStep_accumulator_bijective y)

theorem hashSeq_append_cons (X Y : List Byte) (x : Byte) :
    hashSeq (X ++ x :: Y) = Y.foldl (fun h x => pearson (h ^^^ x)) (pearson (hashSeq X ^^^ x)) := by
  rw [hashSeq, List.foldl_append, List.foldl_cons]
  rfl

/-- Settles O52: every mixer is a composition of steps of the fold after a first look-up. -/
theorem mixersAreBijections : Obligations.MixersAreBijections := by
  unfold Obligations.MixersAreBijections
  refine ⟨pearson_bijective, fun a b => ?_⟩
  have stepA := foldStep_accumulator_bijective a
  have stepB := foldStep_accumulator_bijective b
  exact ⟨stepA.comp pearson_bijective, foldStep_byte_bijective (pearson a),
    stepB.comp (stepA.comp pearson_bijective), stepB.comp (foldStep_byte_bijective (pearson a)),
    foldStep_byte_bijective _, foldStep_byte_bijective a, stepA,
    fun X => hashSeq_append_singleton X a, fun X Y => by
      simp only [hashSeq_append_cons]
      exact (fold_bijective Y).comp (foldStep_byte_bijective (hashSeq X))⟩

/-! ### The length code -/

theorem topval_lt {i j : Nat} (hij : i < j) (hj : j ≤ 255) : topval i < topval j := by
  obtain ⟨-, -, hrising, -⟩ := topvalOk_spec topvalOk_topval
  exact lt_of_rising hrising hij hj

theorem topval_le {i j : Nat} (hij : i ≤ j) (hj : j ≤ 255) : topval i ≤ topval j := by
  rcases Nat.eq_or_lt_of_le hij with rfl | h
  · exact BitVec.le_refl _
  · exact BitVec.le_of_lt (topval_lt h hj)

/-- The length code is at most `i` just where the threshold of `i` is reached: rule R152 with the rising
table of R151. -/
theorem lCapturing_le_iff {len : U64} {i : Nat} (hi : i ≤ 255) :
    (lCapturing len).toNat ≤ i ↔ len ≤ topval i := by
  obtain ⟨hreaches, hbelow⟩ := lCapturing_spec len
  constructor
  · exact fun h => BitVec.le_trans hreaches (topval_le h hi)
  · intro h
    by_contra hc
    exact BitVec.not_lt.mpr h (hbelow i (by omega))

/-- A length between two thresholds has the code of the upper one. -/
theorem lCapturing_eq_succ {len : U64} {i : Nat} (hi : i < 255) (hlow : topval i < len)
    (hhigh : len ≤ topval (i + 1)) : lCapturing len = BitVec.ofNat 8 (i + 1) := by
  have hle := (lCapturing_le_iff (len := len) (i := i + 1) (by omega)).mpr hhigh
  have hgt : ¬(lCapturing len).toNat ≤ i := fun h =>
    BitVec.not_le.mpr hlow ((lCapturing_le_iff (by omega)).mp h)
  apply BitVec.eq_of_toNat_eq
  rw [BitVec.toNat_ofNat]
  omega

/-- Lengths up to the first threshold have code 0. -/
theorem lCapturing_eq_zero {len : U64} (h : len ≤ topval 0) : lCapturing len = 0#8 := by
  have hle := (lCapturing_le_iff (Nat.zero_le 255)).mpr h
  exact BitVec.eq_of_toNat_eq (Nat.le_zero.mp hle)

theorem topval_zero : topval 0 = 1#64 := (topvalOk_spec topvalOk_topval).1

/-- The empty stream has code 0 (rule R155). -/
theorem lCapturing_empty : lCapturing 0#64 = 0#8 := by
  refine lCapturing_eq_zero ?_
  rw [topval_zero]
  decide

/-- Each threshold is at least one more than its index, as the table rises from 1. -/
theorem index_lt_topval {i : Nat} (hi : i ≤ 255) : i < (topval i).toNat := by
  induction i with
  | zero => rw [topval_zero]; decide
  | succ i ih =>
    have := ih (by omega)
    have : (topval i).toNat < (topval (i + 1)).toNat := topval_lt (Nat.lt_succ_self i) hi
    omega

/-- A length from 1 to 255 has a code below it. -/
theorem lCapturing_lt {n : Nat} (h1 : 1 ≤ n) (h255 : n ≤ 255) :
    (lCapturing (BitVec.ofNat 64 n)).toNat ≤ n - 1 := by
  refine (lCapturing_le_iff (by omega)).mpr ?_
  have := index_lt_topval (i := n - 1) (by omega)
  rw [BitVec.le_def, BitVec.toNat_ofNat]
  omega

/-- The code of a threshold is its index. -/
theorem lCapturing_topval {i : Nat} (hi : i < 255) : lCapturing (topval i) = BitVec.ofNat 8 i := by
  cases i with
  | zero => exact lCapturing_eq_zero (BitVec.le_refl _)
  | succ i =>
    exact lCapturing_eq_succ (by omega) (topval_lt (Nat.lt_succ_self i) (by omega)) (BitVec.le_refl _)

/-- Just above a threshold the code is the next index. -/
theorem lCapturing_topval_succ {i : Nat} (hi : i < 255) :
    lCapturing (topval i + 1#64) = BitVec.ofNat 8 (i + 1) := by
  have hlt : topval i < topval (i + 1) := topval_lt (Nat.lt_succ_self i) (by omega)
  exact lCapturing_eq_succ hi (by bv_omega) (by bv_omega)

theorem lCapturing_last : lCapturing (BitVec.allOnes 64) = 255#8 := by
  refine lCapturing_eq_succ (i := 254) (by decide) ?_ (le_topval_last _)
  rw [← topval_last]
  exact topval_lt (by decide) (by decide)

theorem lCapturing_mono {x y : U64} (h : x ≤ y) : lCapturing x ≤ lCapturing y := by
  have hle : (lCapturing y).toNat ≤ 255 := Nat.le_of_lt_succ (lCapturing y).isLt
  exact (lCapturing_le_iff hle).mpr (BitVec.le_trans h (lCapturing_spec y).1)

/-- Settles O56. -/
theorem lengthCodeLaws : Obligations.LengthCodeLaws := by
  unfold Obligations.LengthCodeLaws
  obtain ⟨hfirst, -, -, ⟨h5, h6⟩, ⟨h6', h7⟩, h52, h53⟩ := topvalOk_spec topvalOk_topval
  have hone : lCapturing 1#64 = 0#8 := lCapturing_eq_zero (by rw [hfirst]; exact BitVec.le_refl _)
  have htwo : lCapturing 2#64 = 1#8 := by
    have := lCapturing_topval_succ (i := 0) (by decide)
    rwa [hfirst] at this
  have hthree : lCapturing 3#64 = 1#8 ∨ lCapturing 3#64 = 2#8 := by
    have hle : (lCapturing 3#64).toNat ≤ 2 := lCapturing_lt (by decide) (by decide)
    have hge : lCapturing 2#64 ≤ lCapturing 3#64 := lCapturing_mono (by decide)
    rw [htwo] at hge
    bv_omega
  exact ⟨lCapturing_empty, hone, htwo, hthree, fun n => lCapturing_lt,
    fun i hi => ⟨lCapturing_topval hi, lCapturing_topval_succ hi⟩, lCapturing_last,
    fun x y => lCapturing_mono, lCapturing_eq_succ (by decide) h5 h6,
    lCapturing_eq_succ (by decide) h6' h7, lCapturing_eq_succ (by decide) h52 h53⟩

/-! ### The pair table -/

/-- Each pair `1 ≤ a < b ≤ w - 1` stands once in the rows in use. -/
theorem pair_occurs_once :
    ∀ w ∈ [4, 5, 6, 7, 8], ∀ b < w, ∀ a < b, 1 ≤ a →
      (pairTable.take (pairCount w)).countP (fun r => decide (r.a = a ∧ r.b = b)) = 1 := by
  decide

theorem pairTable_primes :
    pairTable.map (fun r => r.p.toNat) = (List.range 74).filter Nat.Prime := by
  decide +kernel

theorem pairCount_eq :
    ∀ w ∈ [4, 5, 6, 7, 8], (pairTable.take (pairCount w)).length = (w - 1) * (w - 2) / 2 := by
  decide

/-- Settles O25, by looking at the 21 rows. -/
theorem pairTableNamesEveryPairOnce : Obligations.PairTableNamesEveryPairOnce := by
  unfold Obligations.PairTableNamesEveryPairOnce
  refine ⟨fun w h4 h8 => ?_, rfl, rfl, by decide⟩
  have hw : w ∈ [4, 5, 6, 7, 8] := by
    simp only [List.mem_cons, List.not_mem_nil, or_false]
    omega
  refine ⟨pairCount_eq w hw, fun a b h1 hab hb => pair_occurs_once w hw b (by omega) a hab h1, ?_⟩
  rw [List.map_take, pairTable_primes]

/-! ### Names -/

/-- The valid triples are the 25 listed (rules R4, R10). -/
theorem mem_validTriples {g : Cfg} (hg : g.Valid) : g ∈ validTriples := by
  obtain ⟨w, b, c⟩ := g
  obtain ⟨hw, hb, hc, hbc⟩ := hg
  simp only at hw hb hc hbc
  refine List.mem_flatMap.mpr ⟨w, ?_, ?_⟩
  · simp only [List.mem_cons, List.not_mem_nil, or_false]
    omega
  · simp only [List.mem_cons, Cfg.mk.injEq, List.not_mem_nil, or_false, true_and]
    omega

theorem tripleOfName_fullName : ∀ g ∈ validTriples, tripleOfName (fullName g) = some g := by
  decide +kernel

/-- The fields the assembler makes of a valid triple spell it (rule R105). -/
theorem cfgTriple_of_mem_validTriples : ∀ g ∈ validTriples,
    cfgTriple (BitVec.ofNat 4 g.w) (BitVec.ofNat 2 g.c)
      (if g.b = 48 then 0#2 else if g.b = 128 then 1#2 else if g.b = 256 then 2#2 else 3#2)
      = some g := by
  decide +kernel

/-- Settles O60, triple by triple. -/
theorem namesSpellTheirTriples : Obligations.NamesSpellTheirTriples := by
  unfold Obligations.NamesSpellTheirTriples
  intro g hg
  have hmem := mem_validTriples hg
  exact ⟨tripleOfName_fullName g hmem, _, _, _, rfl, cfgTriple_of_mem_validTriples g hmem⟩

end Sys2Proof.Machine
end

section
/-! Proofs about the streaming digester (42_digester.md): the 3-byte checksum and the limits of UPD, FIN's
digest value, and whole streams in closed form. -/

namespace Sys2Proof.Machine

/-! ### UPD: the 3-byte checksum and the limits -/

/-- Settles O23: the running byte is absorbed, and `nextChecksum` mixes each byte from the one before it. -/
theorem updThreeByteChecksum : Obligations.UpdThreeByteChecksum := by
  unfold Obligations.UpdThreeByteChecksum
  intro s x hmode hcount hrun hc hroom
  obtain ⟨bucket', -, habsorb⟩ := absorb_of_running hrun hroom
  exact ⟨_, _, _, _, exec_upd_of_absorb hmode hcount habsorb, if_pos hc, rfl, rfl, rfl⟩

/-- A running byte that carries a counter past `2^64 - 1` is not absorbed (rule R170). -/
theorem absorb_of_overflow {g : Cfg} {x : Byte} {d : Digester} (hrun : g.w ≤ d.count.toNat + 1)
    (hover : ∃ k, ∃ _ : k < 256, 2 ^ 64 ≤ d.bucket[k].toNat + bucketHits g x d.lag k) :
    absorb g x d = none := by
  simp only [bucketHits_eq_countP] at hover
  have hfull := incrementAll_eq_none.mpr hover
  rcases absorb_cases g x d with ⟨-, -, hnone⟩ | ⟨-, bucket', hinc, -⟩ | ⟨hwarm, -⟩
  · exact hnone
  · rw [hfull] at hinc
    cases hinc
  · omega

/-- Settles O24. -/
theorem updRaisesAtItsLimits : Obligations.UpdRaisesAtItsLimits := by
  unfold Obligations.UpdRaisesAtItsLimits
  intro s x hmode hlimit
  rcases hlimit with hcount | ⟨hrun, hover⟩
  · exact exec_upd_of_raises (.inr (.inl hcount))
  · exact exec_upd_of_raises (.inr (.inr (absorb_of_overflow hrun hover)))

/-! ### FIN: order statistics -/

/-- In an ascending list later entries are no smaller. -/
theorem getD_le_getD {S : List Nat} (hS : S.Pairwise (· ≤ ·)) {i j : Nat} (hij : i ≤ j)
    (hj : j < S.length) : S.getD i 0 ≤ S.getD j 0 := by
  rw [List.getD_eq_getElem _ _ (by omega), List.getD_eq_getElem _ _ hj]
  rcases Nat.eq_or_lt_of_le hij with rfl | hlt
  · exact le_rfl
  · exact List.pairwise_iff_getElem.mp hS i j _ _ hlt

/-- The quartile boundaries of sorted counters are in order (rule R173). -/
theorem quartile_le {b : Nat} {S : List Nat} (hS : S.Pairwise (· ≤ ·)) (hlen : S.length = b)
    (hb : 4 ≤ b) {i j : Nat} (hij : i ≤ j) (hj : j ≤ 3) : quartile b S i ≤ quartile b S j := by
  have hi : i * (b / 4) ≤ j * (b / 4) := Nat.mul_le_mul_right _ hij
  have hj : j * (b / 4) ≤ 3 * (b / 4) := Nat.mul_le_mul_right _ hj
  exact getD_le_getD hS (by omega) (by omega)

/-- A part of a whole is at most 100 per cent of it, 0 of 0 included (rule R178). -/
theorem percent_le {q q3 : Nat} (h : q ≤ q3) : q * 100 / q3 ≤ 100 :=
  Nat.div_le_of_le_mul (Nat.mul_le_mul_right 100 h)

/-- Settles O27. -/
theorem quartilesAreOrdered : Obligations.QuartilesAreOrdered := by
  unfold Obligations.QuartilesAreOrdered
  intro bucket b hb S
  have hS : S.Pairwise (· ≤ ·) := sortAsc_pairwise _
  have hlen : S.length = b := (sortAsc_length _).trans (counters_length bucket (by omega))
  have h12 : quartile b S 1 ≤ quartile b S 2 := quartile_le hS hlen (by omega) (by omega) (by omega)
  have h23 : quartile b S 2 ≤ quartile b S 3 := quartile_le hS hlen (by omega) (by omega) (by omega)
  exact ⟨h12, h23, percent_le (h12.trans h23), percent_le h23⟩

/-! ### FIN: codes and ratios as numbers -/

theorem quartileCode_toNat (q1 q2 q3 v : Nat) :
    (quartileCode q1 q2 q3 v).toNat
      = if v > q3 then 3 else if v > q2 then 2 else if v > q1 then 1 else 0 := by
  unfold quartileCode
  split_ifs <;> rfl

/-- Four codes as one number, the first in the lowest bits (rule R177). -/
theorem concat_codes (c0 c1 c2 c3 : BitVec 2) :
    (c3 ++ c2 ++ c1 ++ c0 : Byte)
      = BitVec.ofNat 8 (c0.toNat + 4 * c1.toNat + 16 * c2.toNat + 64 * c3.toNat) := by
  revert c0 c1 c2 c3
  decide

theorem bodyByte_eq (code : Nat → BitVec 2) (i : Nat) :
    bodyByte code i
      = BitVec.ofNat 8 ((code (4 * i)).toNat + 4 * (code (4 * i + 1)).toNat
          + 16 * (code (4 * i + 2)).toNat + 64 * (code (4 * i + 3)).toNat) :=
  concat_codes ..

theorem ratioNibble_eq (q q3 : Nat) :
    ratioNibble q q3 = BitVec.ofNat 4 (if q3 = 0 then 0 else q * 100 / q3) := by
  unfold ratioNibble
  split_ifs <;> rfl

/-- The counter FIN reads at a place below `b` is that bucket (rule R173). -/
theorem counters_getD {b n : Nat} (bucket : Vector U64 256) (hn : n < b) :
    (counters b bucket).getD n 0 = (bucket.toList.getD n 0#64).toNat := by
  rw [counters, ← BitVec.toNat_zero (w := 64), List.getD_map, List.getD_eq_getElem?_getD,
    List.getElem?_take_of_lt hn, ← List.getD_eq_getElem?_getD]
  rfl

/-- Settles O26: the model's sort gives the arrangement stated, as there is only one, and its codes and
ratios are the numbers stated. -/
theorem finComputesDigest : Obligations.FinComputesDigest := by
  unfold Obligations.FinComputesDigest
  intro s S hmode hvalid hS hperm k q1 q2 q3 code
  have hsort : sortAsc (counters s.cfg.b s.dig.bucket) = S := sortAsc_unique hS hperm
  have hcode : ∀ n, n < s.cfg.b →
      (quartileCode q1 q2 q3 ((counters s.cfg.b s.dig.bucket).getD n 0)).toNat = code n :=
    fun n hn => by rw [quartileCode_toNat, counters_getD _ hn]
  have hq1 : quartile s.cfg.b S 1 = q1 := by rw [quartile, one_mul]
  have hbody : ∀ i ∈ List.range k,
      bodyByte (fun n => quartileCode q1 q2 q3 ((counters s.cfg.b s.dig.bucket).getD n 0)) i
        = BitVec.ofNat 8 (code (4 * i) + 4 * code (4 * i + 1) + 16 * code (4 * i + 2)
            + 64 * code (4 * i + 3)) := fun i hi => by
    have hi : i < s.cfg.b / 4 := List.mem_range.mp hi
    rw [bodyByte_eq, hcode _ (by omega), hcode _ (by omega), hcode _ (by omega), hcode _ (by omega)]
  rw [exec_fin_of_active hmode, ← List.map_congr_left hbody, ← ratioNibble_eq, ← ratioNibble_eq]
  have hdv : finalize s.cfg s.dig
      = { checksum := s.dig.checksum.toList.take s.cfg.c
          lvalue := lCapturing s.dig.count
          q1 := ratioNibble q1 q3
          q2 := ratioNibble q2 q3
          body := (List.range k).map
            (bodyByte fun n => quartileCode q1 q2 q3 ((counters s.cfg.b s.dig.bucket).getD n 0)) } := by
    simp only [finalize, hsort, hq1]
    rfl
  rw [← hdv]
  rfl

/-! ### Streams from any state: a function of the digester -/

/-- The digester after one UPD in ACTIVE: the byte absorbed, or no change where UPD raises. -/
def afterUpd (g : Cfg) (d : Digester) (x : Byte) : Digester :=
  if d.count.toNat = countLimit then d else (absorb g x d).getD d

/-- UPD in ACTIVE changes the digester by `afterUpd` and answers; nothing else. -/
theorem exec_upd_of_active {s : State} (hmode : s.mode = .active) (x : Byte) :
    ∃ r, exec (.upd x) s = .next (({ s with dig := afterUpd s.cfg s.dig x } : State).answer r) := by
  rcases execUpd_cases x s with ⟨-, hcount, d, hd, e⟩ | ⟨hraise, e⟩
  · refine ⟨[0x00#8], ?_⟩
    rw [afterUpd, if_neg hcount, hd]
    exact e
  · refine ⟨[0x05#8], ?_⟩
    have hsame : afterUpd s.cfg s.dig x = s.dig := by
      by_cases hcount : s.dig.count.toNat = countLimit
      · exact if_pos hcount
      · have hnone : absorb s.cfg x s.dig = none := by simpa [hmode, hcount] using hraise
        rw [afterUpd, if_neg hcount, hnone]
        rfl
    rw [hsame]
    exact e

theorem runCommands_cons {i : Instr} {s t : State} (h : exec i s = .next t) (is : List Instr) :
    runCommands (i :: is) s = runCommands is t := by
  rw [runCommands, h]

theorem runCommands_append_next {A : List Instr} {s t : State} (h : runCommands A s = .next t)
    (B : List Instr) : runCommands (A ++ B) s = runCommands B t := by
  rw [runCommands_append, h]

/-- A stream of UPDs in ACTIVE runs to its end and folds `afterUpd` over its bytes. -/
theorem runCommands_pseudoUpdate (xs : List Byte) {s : State} (hmode : s.mode = .active) :
    ∃ out, runCommands (pseudoUpdate xs) s
      = .next { s with dig := xs.foldl (afterUpd s.cfg) s.dig, outbox := out } := by
  induction xs generalizing s with
  | nil => exact ⟨s.outbox, rfl⟩
  | cons x xs ih =>
    obtain ⟨r, e⟩ := exec_upd_of_active hmode x
    obtain ⟨out, hrun⟩ := ih (s := ({ s with dig := afterUpd s.cfg s.dig x } : State).answer r) hmode
    exact ⟨out, (runCommands_cons e _).trans hrun⟩

/-- CFG and a stream: the digester is a function of the triple and the bytes. -/
theorem runCommands_cfg_stream {wraw : BitVec 4} {craw bsel : BitVec 2} {g : Cfg} (s : State)
    (hg : cfgTriple wraw craw bsel = some g) (xs : List Byte) :
    ∃ out, runCommands (.cfg wraw craw bsel :: pseudoUpdate xs) s
      = .next
          { s with
            cfg := g
            mode := .active
            dig := xs.foldl (afterUpd g) emptyDigester
            outbox := out } := by
  rw [runCommands_cons (exec_cfg_of_some s hg)]
  exact runCommands_pseudoUpdate xs (s := ({ s with cfg := g } : State).emptied.respond []) rfl

/-- RST and a stream: the same function of the configuration that is there. -/
theorem runCommands_rst_stream {s : State} (hmode : s.mode ≠ .unconf) (xs : List Byte) :
    ∃ out, runCommands (.rst :: pseudoUpdate xs) s
      = .next
          { s with
            mode := .active
            dig := xs.foldl (afterUpd s.cfg) emptyDigester
            outbox := out } := by
  rw [runCommands_cons (exec_rst_of_configured hmode)]
  exact runCommands_pseudoUpdate xs (s := s.emptied.respond []) rfl

/-- A run that ends in ACTIVE, and FIN after it. -/
theorem runCommands_append_fin {A : List Instr} {s t : State} (h : runCommands A s = .next t)
    (hmode : t.mode = .active) : runCommands (A ++ [.fin]) s = .next (t.finalized.respond []) := by
  rw [runCommands_append_next h, runCommands_cons (exec_fin_of_active hmode), runCommands]

/-- Settles O29: both runs reach FIN with one configuration and one digester. -/
theorem resetLaw : Obligations.ResetLaw := by
  unfold Obligations.ResetLaw
  intro s s' wraw craw bsel xs hmode hg
  obtain ⟨out, hcfg⟩ := runCommands_cfg_stream s hg xs
  obtain ⟨out', hrst⟩ := runCommands_rst_stream hmode xs
  exact ⟨_, _, runCommands_append_fin hcfg rfl, runCommands_append_fin hrst rfl, rfl, rfl, rfl⟩

/-- Settles O31. -/
theorem digestForgetsThePast : Obligations.DigestForgetsThePast := by
  unfold Obligations.DigestForgetsThePast
  intro s1 s2 t1 t2 wraw craw bsel xs htriple h1 h2
  obtain ⟨g, hg⟩ := Option.ne_none_iff_exists'.mp htriple
  obtain ⟨out1, e1⟩ := runCommands_cfg_stream s1 hg xs
  obtain ⟨out2, e2⟩ := runCommands_cfg_stream s2 hg xs
  obtain rfl := Host.Outcome.next.inj (e1.symm.trans h1)
  obtain rfl := Host.Outcome.next.inj (e2.symm.trans h2)
  exact ⟨rfl, rfl, rfl⟩

/-! ### Streams from the empty digester: the closed form -/

/-- The places of the running bytes of a stream: those with `n + 1 ≥ w` (rule R164). -/
def runningPlaces (g : Cfg) (xs : List Byte) : List Nat :=
  (List.range xs.length).filter fun n => decide (g.w ≤ n + 1)

/-- The checksum registers after a stream: its running bytes folded with `nextChecksum` (rules R165,
R166). -/
def streamChecksum (g : Cfg) (xs : List Byte) : Vector Byte 3 :=
  (runningPlaces g xs).foldl
    (fun cs n => nextChecksum g.c (xs.getD n 0#8) (xs.getD (n - 1) 0#8) cs) (Vector.replicate 3 0#8)

/-- The digester holds what the stream `xs` leaves from the empty one. -/
structure Absorbed (g : Cfg) (xs : List Byte) (d : Digester) : Prop where
  count : d.count.toNat = xs.length
  lag : d.lag = streamLag xs
  bucket : ∀ k (_ : k < 256), d.bucket[k].toNat = streamHits g xs k
  checksum : d.checksum = streamChecksum g xs

theorem runningPlaces_append_singleton (g : Cfg) (xs : List Byte) (x : Byte) :
    runningPlaces g (xs ++ [x])
      = runningPlaces g xs ++ if g.w ≤ xs.length + 1 then [xs.length] else [] := by
  rw [runningPlaces, List.length_append, List.length_singleton, List.range_succ, List.filter_append]
  by_cases h : g.w ≤ xs.length + 1 <;> simp [h, runningPlaces]

/-- No byte of a stream shorter than the window is a running byte (rule R163). -/
theorem runningPlaces_eq_nil {g : Cfg} {xs : List Byte} (h : xs.length < g.w) :
    runningPlaces g xs = [] := by
  refine List.filter_eq_nil_iff.mpr fun n hn => ?_
  have hn := List.mem_range.mp hn
  rw [decide_eq_true_eq]
  omega

/-- One more byte mixes the checksum where it is a running byte. -/
theorem streamChecksum_append_singleton (g : Cfg) (xs : List Byte) (x : Byte) :
    streamChecksum g (xs ++ [x])
      = if g.w ≤ xs.length + 1 then
          nextChecksum g.c x ((xs ++ [x]).getD (xs.length - 1) 0#8) (streamChecksum g xs)
        else streamChecksum g xs := by
  have hsame : (runningPlaces g xs).foldl
      (fun cs n => nextChecksum g.c ((xs ++ [x]).getD n 0#8) ((xs ++ [x]).getD (n - 1) 0#8) cs)
        (Vector.replicate 3 0#8) = streamChecksum g xs := by
    refine List.foldl_ext _ _ _ fun cs n hn => ?_
    have hn : n < xs.length := List.mem_range.mp (List.mem_filter.mp hn).1
    rw [List.getD_append _ _ _ _ hn, List.getD_append _ _ _ _ (by omega)]
  have hlast : (xs ++ [x]).getD xs.length 0#8 = x := by
    rw [List.getD_append_right _ _ _ _ le_rfl, Nat.sub_self, List.getD_cons_zero]
  rw [streamChecksum, runningPlaces_append_singleton, List.foldl_append, hsame]
  split_ifs
  · rw [List.foldl_cons, List.foldl_nil, hlast]
  · rfl

/-- The byte before the last is at the front of `lag` (rule R169). -/
theorem streamLag_zero {xs : List Byte} (x : Byte) (h : xs ≠ []) :
    (streamLag xs)[0] = (xs ++ [x]).getD (xs.length - 1) 0#8 := by
  have hlen : 0 < xs.length := List.length_pos_iff.mpr h
  have hlt : xs.length - 1 < xs.length := by omega
  rw [List.getD_append _ _ _ _ hlt, List.getD_eq_getElem _ _ hlt, streamLag, Vector.getElem_ofFn,
    List.getD_eq_getElem _ _ (by rwa [List.length_reverse]), List.getElem_reverse]
  rfl

theorem absorbed_nil (g : Cfg) : Absorbed g [] emptyDigester where
  count := rfl
  lag := by decide
  bucket k hk := by
    show (Vector.replicate 256 0#64)[k].toNat = 0
    rw [Vector.getElem_replicate]
    rfl
  checksum := rfl

/-- One more byte of a stream, below the stream limit and with room in the counters, is absorbed. -/
theorem Absorbed.append_singleton {g : Cfg} (hw : 4 ≤ g.w) {xs : List Byte} {d : Digester}
    (h : Absorbed g xs d) {x : Byte} (hlen : xs.length < countLimit)
    (hroom : ∀ k, k < 256 → streamHits g (xs ++ [x]) k ≤ 2 ^ 64 - 1) :
    ∃ d', absorb g x d = some d' ∧ Absorbed g (xs ++ [x]) d' := by
  have hcount : (d.count + 1#64).toNat = (xs ++ [x]).length := by
    rw [count_add_one (h.count ▸ hlen.le), h.count, List.length_append, List.length_singleton]
  have hlag : shiftLag x d.lag = streamLag (xs ++ [x]) := by
    rw [h.lag, streamLag_append_singleton]
  simp only [streamHits_append_singleton] at hroom
  by_cases hrun : g.w ≤ xs.length + 1
  · simp only [hrun, if_true, ← h.lag] at hroom
    obtain ⟨bucket', hbucket, habsorb⟩ := absorb_of_running (g := g) (x := x) (d := d)
      (h.count.symm ▸ hrun) (fun k hk => by rw [h.bucket k hk]; exact hroom k hk)
    refine ⟨_, habsorb, hcount, hlag, fun k hk => ?_, ?_⟩
    · show bucket'[k].toNat = _
      rw [hbucket k hk, h.bucket k hk, streamHits_append_singleton, if_pos hrun, h.lag]
    · have hne : xs ≠ [] := List.ne_nil_of_length_pos (by omega)
      show nextChecksum g.c x d.lag[0] d.checksum = _
      rw [streamChecksum_append_singleton, if_pos hrun, h.checksum, ← streamLag_zero x hne]
      simp only [h.lag]
  · refine ⟨_, absorb_of_warmup x (by rw [h.count]; omega), hcount, hlag, fun k hk => ?_, ?_⟩
    · show d.bucket[k].toNat = _
      rw [h.bucket k hk, streamHits_append_singleton, if_neg hrun, Nat.add_zero]
    · show d.checksum = _
      rw [streamChecksum_append_singleton, if_neg hrun, h.checksum]

/-- The stream a whole run absorbs, every byte answered OK (rule R171). -/
theorem runCommands_stream (xs : List Byte) {s : State} (hmode : s.mode = .active) (hw : 4 ≤ s.cfg.w)
    (hdig : s.dig = emptyDigester) (hlen : xs.length ≤ countLimit)
    (hroom : ∀ k, k < 256 → streamHits s.cfg xs k ≤ 2 ^ 64 - 1) :
    ∃ d, Absorbed s.cfg xs d
      ∧ runCommands (pseudoUpdate xs) s
        = .next { s with dig := d, outbox := s.outbox ++ List.replicate xs.length [0x00#8] } := by
  induction xs using List.reverseRecOn with
  | nil =>
    refine ⟨emptyDigester, absorbed_nil _, ?_⟩
    rw [← hdig, List.length_nil, List.replicate_zero, List.append_nil]
    rfl
  | append_singleton xs x ih =>
    rw [List.length_append, List.length_singleton] at hlen
    have hbefore : ∀ k, k < 256 → streamHits s.cfg xs k ≤ 2 ^ 64 - 1 := fun k hk => by
      have := hroom k hk
      rw [streamHits_append_singleton] at this
      omega
    obtain ⟨d, hd, hrun⟩ := ih (by omega) hbefore
    obtain ⟨d', habsorb, hd'⟩ := hd.append_singleton hw (by omega) hroom
    refine ⟨d', hd', ?_⟩
    have hcount : d.count.toNat ≠ countLimit := by rw [hd.count]; omega
    have hexec := exec_upd_of_absorb
      (s := { s with dig := d, outbox := s.outbox ++ List.replicate xs.length [0x00#8] })
      hmode hcount habsorb
    have hsplit : pseudoUpdate (xs ++ [x]) = pseudoUpdate xs ++ [.upd x] := List.map_append
    rw [hsplit, runCommands_append_next hrun, runCommands_cons hexec, runCommands,
      List.length_append, List.length_singleton, List.replicate_succ', ← List.append_assoc]
    rfl

/-- The first checksum byte of a stream, folded by itself. -/
theorem streamChecksum_zero (g : Cfg) (xs : List Byte) :
    (streamChecksum g xs)[0]
      = (runningPlaces g xs).foldl
          (fun old n => nextChecksum0 (xs.getD n 0#8) (xs.getD (n - 1) 0#8) old) 0#8 := by
  have hfirst : ∀ l0 l1 cs, (nextChecksum g.c l0 l1 cs)[0] = nextChecksum0 l0 l1 cs[0] := by
    intro l0 l1 cs
    obtain ⟨k1, k2, heq, -⟩ := nextChecksum_eq g.c l0 l1 cs
    rw [heq]
    rfl
  exact (List.foldl_hom (fun cs : Vector Byte 3 => cs[0]) fun cs n => (hfirst _ _ cs).symm).symm

/-- With a 1-byte checksum the other two registers stay 0 (rule R23). -/
theorem streamChecksum_upper {g : Cfg} (hc : g.c = 1) (xs : List Byte) :
    (streamChecksum g xs)[1] = 0#8 ∧ (streamChecksum g xs)[2] = 0#8 := by
  refine List.foldlRecOn (motive := fun cs : Vector Byte 3 => cs[1] = 0#8 ∧ cs[2] = 0#8)
    (runningPlaces g xs) _ ⟨rfl, rfl⟩ fun cs hcs n _ => ?_
  obtain ⟨h1, h2⟩ := nextChecksum_upper hc (xs.getD n 0#8) (xs.getD (n - 1) 0#8) cs
  exact ⟨h1.trans hcs.1, h2.trans hcs.2⟩

/-- Settles O30: the run of the stream, its registers as `Absorbed` says. -/
theorem streamClosedForm : Obligations.StreamClosedForm := by
  unfold Obligations.StreamClosedForm
  intro s xs hmode hvalid hdig hlen hroom
  obtain ⟨d, hd, hrun⟩ := runCommands_stream xs hmode hvalid.1.1 hdig hlen hroom
  refine ⟨d, hrun, hd.count, fun j hj => ?_, hd.bucket, ?_, fun hc => ?_⟩
  · simp only [hd.lag, streamLag, Vector.getElem_ofFn]
  · simp only [hd.checksum]
    exact streamChecksum_zero s.cfg xs
  · simp only [hd.checksum]
    exact streamChecksum_upper hc xs

/-! ### Streams shorter than the window -/

theorem streamHits_eq_zero {g : Cfg} {xs : List Byte} (h : xs.length < g.w) (k : Nat) :
    streamHits g xs k = 0 := by
  have hplaces : (List.range xs.length).filter (fun n => decide (g.w ≤ n + 1)) = [] :=
    runningPlaces_eq_nil h
  rw [streamHits, hplaces, List.map_nil, List.sum_nil]

/-- A stream shorter than the window leaves checksum and histogram 0 (rule R163). -/
theorem Absorbed.of_short {g : Cfg} {xs : List Byte} {d : Digester} (h : Absorbed g xs d)
    (hshort : xs.length < g.w) :
    d.checksum = Vector.replicate 3 0#8 ∧ d.bucket = Vector.replicate 256 0#64
      ∧ d.count = BitVec.ofNat 64 xs.length := by
  refine ⟨?_, ?_, ?_⟩
  · rw [h.checksum, streamChecksum, runningPlaces_eq_nil hshort, List.foldl_nil]
  · ext1 k hk
    rw [Vector.getElem_replicate]
    exact BitVec.eq_of_toNat_eq ((h.bucket k hk).trans (streamHits_eq_zero hshort k))
  · rw [← h.count, BitVec.ofNat_toNat, BitVec.setWidth_eq]

theorem counters_zero {b : Nat} (hb : b ≤ 256) :
    counters b (Vector.replicate 256 0#64) = List.replicate b 0 := by
  rw [counters, Vector.toList_replicate, List.take_replicate, min_eq_left hb, List.map_replicate]
  rfl

theorem getD_replicate_zero (b n : Nat) : (List.replicate b 0).getD n 0 = 0 := by
  rw [List.getD_eq_getElem?_getD, List.getElem?_getD_replicate_default_eq]

theorem quartile_zero (b i : Nat) : quartile b (List.replicate b 0) i = 0 := by
  rw [quartile, getD_replicate_zero]

/-- FIN of a digester with no running byte (rule R180). -/
theorem finalize_zero {g : Cfg} (hg : g.Valid) {d : Digester}
    (hchecksum : d.checksum = Vector.replicate 3 0#8) (hbucket : d.bucket = Vector.replicate 256 0#64) :
    finalize g d
      = { checksum := List.replicate g.c 0#8
          lvalue := lCapturing d.count
          q1 := 0#4
          q2 := 0#4
          body := List.replicate (g.b / 4) 0#8 } := by
  obtain ⟨-, hb, hc, -⟩ := hg
  have hcounters : counters g.b d.bucket = List.replicate g.b 0 := by
    rw [hbucket, counters_zero (by omega)]
  have hsort : sortAsc (List.replicate g.b 0) = List.replicate g.b 0 :=
    sortAsc_unique (List.pairwise_replicate.mpr (.inr le_rfl)) (List.Perm.refl _)
  have hbyte : ∀ i, bodyByte (fun n => quartileCode 0 0 0 ((List.replicate g.b 0).getD n 0)) i = 0#8 := by
    intro i
    have hcode : quartileCode 0 0 0 0 = 0#2 := rfl
    simp only [getD_replicate_zero, bodyByte, hcode]
    rfl
  have htake : (Vector.replicate 3 0#8).toList.take g.c = List.replicate g.c 0#8 := by
    rw [Vector.toList_replicate, List.take_replicate, min_eq_left (by omega)]
  simp only [finalize, hcounters, hsort, quartile_zero, hchecksum, htake, List.map_congr_left
    (fun i _ => hbyte i), List.map_const', List.length_range]
  rfl

/-- Settles O28: the closed form of the stream, finalized. -/
theorem shortStreamDigest : Obligations.ShortStreamDigest := by
  unfold Obligations.ShortStreamDigest
  intro s xs hmode hvalid hdig hshort
  have hw : s.cfg.w ≤ 8 := hvalid.1.2
  have hlen : xs.length ≤ countLimit := by rw [countLimit]; omega
  have hroom : ∀ k, k < 256 → streamHits s.cfg xs k ≤ 2 ^ 64 - 1 := fun k _ => by
    rw [streamHits_eq_zero hshort]
    exact Nat.zero_le _
  obtain ⟨d, hd, hrun⟩ := runCommands_stream xs hmode hvalid.1.1 hdig hlen hroom
  obtain ⟨hchecksum, hbucket, hcount⟩ := hd.of_short hshort
  have hdv := finalize_zero hvalid hchecksum hbucket
  rw [hcount] at hdv
  refine ⟨_, runCommands_append_fin hrun hmode, rfl, hdv, ?_⟩
  rintro rfl
  show packBytes (finalize s.cfg d) = _
  rw [hdv, List.length_nil, lCapturing_empty, packBytes]
  have hzero : swap 0#8 = 0#8 := rfl
  simp only [List.map_replicate, List.reverse_replicate, hzero, byteOfNibbles]
  show _ ++ List.replicate 1 0#8 ++ List.replicate 1 0#8 ++ _ = _
  simp only [List.replicate_append_replicate]

end Sys2Proof.Machine
end

section
/-! Proofs about the digest codec (43_digest_codec.md): the packed form and hex text, and their round
trips. -/

namespace Sys2Proof.Machine

/-! ### The packed form -/

theorem swap_eq : swap = fun v : Byte => v.rotateLeft 4 := funext swap_eq_rotateLeft

/-- The packed form with its checksum bytes first and its body last (rule R110). -/
theorem packBytes_eq (D : DigestValue) :
    packBytes D
      = D.checksum.map swap ++ (swap D.lvalue :: byteOfNibbles D.q1 D.q2 :: D.body.reverse) := by
  simp [packBytes]

/-- Settles O32: exchanging nibbles is rotating by four. -/
theorem packReturnsPackedDigest : Obligations.PackReturnsPackedDigest := by
  unfold Obligations.PackReturnsPackedDigest
  intro s hvalid
  rw [exec_pack_of_valid hvalid, packBytes_eq, swap_eq]
  rfl

/-- What unpacking gives, in the terms of rule R201. -/
theorem unpackBytes_eq_rotateLeft {B : List Byte} {c : Nat}
    (h : (B.length, c) ∈ [(15, 1), (35, 1), (37, 3), (67, 1), (69, 3)]) :
    unpackBytes B
      = some
          { checksum := (B.take c).map fun v => v.rotateLeft 4
            lvalue := (B.getD c 0#8).rotateLeft 4
            q1 := (B.getD (c + 1) 0#8).extractLsb' 4 4
            q2 := (B.getD (c + 1) 0#8).extractLsb' 0 4
            body := B.reverse.take (B.length - (c + 2)) } := by
  rw [unpackBytes_of_length h, List.reverse_drop, swap_eq]
  rfl

/-- Settles O33. -/
theorem unpackLoadsDigest : Obligations.UnpackLoadsDigest := by
  unfold Obligations.UnpackLoadsDigest
  intro s B c h
  exact exec_unpack_of_some s (unpackBytes_eq_rotateLeft h)

/-- Settles O34. -/
theorem unpackRejectsOtherLengths : Obligations.UnpackRejectsOtherLengths := by
  unfold Obligations.UnpackRejectsOtherLengths
  intro s B h
  exact exec_unpack_of_none s (unpackBytes_eq_none.mpr h)

/-- The length of a shaped digest value's packed form goes with its checksum length (rule R111). -/
theorem packBytes_length_mem {D : DigestValue} (hD : D.Shaped) :
    ((packBytes D).length, D.checksum.length) ∈ [(15, 1), (35, 1), (37, 3), (67, 1), (69, 3)] := by
  simp only [DigestValue.Shaped, List.mem_cons, Prod.mk.injEq, List.not_mem_nil, or_false] at hD
  rw [packBytes_length]
  rcases hD with ⟨hc, hb⟩ | ⟨hc, hb⟩ | ⟨hc, hb⟩ | ⟨hc, hb⟩ | ⟨hc, hb⟩ <;> simp [hc, hb]

/-- Unpacking undoes packing (rule R206 item 1), field by field. -/
theorem unpackBytes_packBytes {D : DigestValue} (hD : D.Shaped) : unpackBytes (packBytes D) = some D := by
  rw [unpackBytes_of_length (packBytes_length_mem hD), packBytes_eq]
  have hlen : (D.checksum.map swap).length = D.checksum.length := List.length_map _
  have htake : ∀ R : List Byte, (D.checksum.map swap ++ R).take D.checksum.length
      = D.checksum.map swap := fun R => List.take_left' hlen
  have hget : ∀ (R : List Byte) (j : Nat),
      (D.checksum.map swap ++ R).getD (D.checksum.length + j) 0#8 = R.getD j 0#8 := fun R j => by
    rw [List.getD_append_right _ _ _ _ (by omega), hlen, Nat.add_sub_cancel_left]
  have hdrop : ∀ (R : List Byte) (j : Nat),
      (D.checksum.map swap ++ R).drop (D.checksum.length + j) = R.drop j := fun R j => by
    rw [← hlen, List.drop_length_add_append]
  rw [htake, map_swap_map_swap, ← Nat.add_zero D.checksum.length]
  simp only [Nat.add_assoc, hget, hdrop, Nat.zero_add, List.getD_cons_zero, List.getD_cons_succ,
    List.drop_succ_cons, List.drop_zero, swap_swap, highNibble_byteOfNibbles, lowNibble_byteOfNibbles,
    List.reverse_reverse]

/-- Settles O36. -/
theorem unpackOfPack : Obligations.UnpackOfPack := by
  unfold Obligations.UnpackOfPack
  exact fun D hD => unpackBytes_packBytes hD

/-- Packing undoes unpacking (rule R206 item 1). -/
theorem packBytes_of_unpackBytes {B : List Byte} {D : DigestValue} (h : unpackBytes B = some D) :
    packBytes D = B := by
  obtain ⟨c, hc, rfl⟩ := unpackBytes_eq_some h
  have hroom : c + 2 ≤ B.length := by
    simp only [List.mem_cons, Prod.mk.injEq, List.not_mem_nil, or_false] at hc
    omega
  have hsplit : B.drop c = B.getD c 0#8 :: B.getD (c + 1) 0#8 :: B.drop (c + 2) := by
    rw [List.getD_eq_getElem _ _ (by omega), List.getD_eq_getElem _ _ (by omega),
      ← List.drop_eq_getElem_cons, ← List.drop_eq_getElem_cons]
  rw [packBytes_eq]
  simp only [map_swap_map_swap, swap_swap, byteOfNibbles_nibbles, List.reverse_reverse]
  rw [← hsplit, List.take_append_drop]

/-- A buffer of a packed length unpacks. -/
theorem exists_unpackBytes {B : List Byte} (h : B.length ∈ [15, 35, 37, 67, 69]) :
    ∃ D, unpackBytes B = some D :=
  Option.ne_none_iff_exists'.mp (mt unpackBytes_eq_none.mp (not_not.mpr h))

/-- Settles O35: UNPACK loads the digest value, and PACK answers its packed form, which is the operand. -/
theorem unpackThenPackReturnsBytes : Obligations.UnpackThenPackReturnsBytes := by
  unfold Obligations.UnpackThenPackReturnsBytes
  intro s B hlen
  obtain ⟨D, hD⟩ := exists_unpackBytes hlen
  have hpack := exec_pack_of_valid
    (s := ({ s with dv := D, dvValid := true } : State).respond []) rfl
  refine ⟨_, by rw [runCommands_cons (exec_unpack_of_some s hD), runCommands_cons hpack, runCommands], ?_⟩
  simp [packBytes_of_unpackBytes hD]

/-! ### Hex text -/

/-- The sixteen upper-case digits in order (rule R120). -/
theorem hexDigit_eq_getD (n : Nibble) :
    hexDigit n
      = [0x30#8, 0x31#8, 0x32#8, 0x33#8, 0x34#8, 0x35#8, 0x36#8, 0x37#8, 0x38#8, 0x39#8, 0x41#8, 0x42#8,
          0x43#8, 0x44#8, 0x45#8, 0x46#8].getD n.toNat 0#8 := by
  revert n
  decide

theorem highNibble_toNat (v : Byte) : (highNibble v).toNat = v.toNat / 16 := by
  revert v
  decide

theorem lowNibble_toNat (v : Byte) : (lowNibble v).toNat = v.toNat % 16 := by
  revert v
  decide

/-- Settles O37: the digits of a byte are those of its two nibbles. -/
theorem hexReturnsUpperCaseText : Obligations.HexReturnsUpperCaseText := by
  unfold Obligations.HexReturnsUpperCaseText
  intro s B hB digits text
  have htext : hexEnc B = text := by
    rw [hexEnc]
    simp only [hexDigit_eq_getD, highNibble_toNat, lowNibble_toNat]
    rfl
  have htagged : (tagT1 ++ hexEnc B).length = 2 + 2 * B.length := by
    rw [List.length_append, hexEnc_length]
    rfl
  constructor
  · rw [exec_hex, lenPrefixed_eq, hexEnc_length, htext]
    rfl
  · rw [exec_hext1, lenPrefixed_eq, htagged, htext]
    rfl

/-- A character in one of the ranges of rule R122 stands for the nibble its place in the range gives. -/
theorem hexVal_of_spells {lowerOk : Bool} {ch : Byte} {v : Nat}
    (h : (0x30 ≤ ch.toNat ∧ ch.toNat ≤ 0x39 ∧ v = ch.toNat - 0x30)
      ∨ (0x41 ≤ ch.toNat ∧ ch.toNat ≤ 0x46 ∧ v = 10 + (ch.toNat - 0x41))
      ∨ (lowerOk = true ∧ 0x61 ≤ ch.toNat ∧ ch.toNat ≤ 0x66 ∧ v = 10 + (ch.toNat - 0x61))) :
    hexVal lowerOk ch = some (BitVec.ofNat 4 v) := by
  unfold hexVal
  rcases h with ⟨h1, h2, rfl⟩ | ⟨h1, h2, rfl⟩ | ⟨hl, h1, h2, rfl⟩
  · rw [if_pos ⟨h1, h2⟩]
  · rw [if_neg (by omega), if_pos ⟨h1, h2⟩, Nat.add_comm]
  · rw [if_neg (by omega), if_neg (by omega), if_pos ⟨hl, h1, h2⟩, Nat.add_comm]

/-- Settles O38: the characters that spell the nibbles of each byte decode to them. -/
theorem unhexReturnsBytes : Obligations.UnhexReturnsBytes := by
  unfold Obligations.UnhexReturnsBytes
  intro s S B spells hlen hspells
  refine exec_unhex_of_some (hexDec_eq_some.mpr ⟨hlen, fun n hn => ?_⟩)
  obtain ⟨hhigh, hlow⟩ := hspells n hn
  rw [hexVal_of_spells hhigh, hexVal_of_spells hlow, ← highNibble_toNat, ← lowNibble_toNat]
  simp only [BitVec.ofNat_toNat, BitVec.setWidth_eq, and_self]

/-- Text of odd length, or with a character that is no hex digit of the build, does not decode. -/
theorem hexDec_eq_none {lowerOk : Bool} {S : List Byte}
    (h : S.length % 2 = 1 ∨ ∃ ch ∈ S, hexVal lowerOk ch = none) : hexDec lowerOk S = none := by
  refine Option.eq_none_iff_forall_ne_some.mpr fun B hB => ?_
  rcases h with hodd | ⟨ch, hmem, hnone⟩
  · have := (hexDec_eq_some.mp hB).1
    omega
  · obtain ⟨n, hn⟩ := hexVal_of_mem hB hmem
    rw [hnone] at hn
    cases hn

/-- Settles O39. -/
theorem unhexRejectsOtherText : Obligations.UnhexRejectsOtherText := by
  unfold Obligations.UnhexRejectsOtherText
  intro s S h
  refine exec_unhex_of_none (hexDec_eq_none ?_)
  simpa only [hexVal_eq_none] using h

/-- An upper-case digit is the digit of the nibble it stands for. -/
theorem hexVal_of_upperCase (lowerOk : Bool) (ch : Byte)
    (h : (0x30 ≤ ch.toNat ∧ ch.toNat ≤ 0x39) ∨ (0x41 ≤ ch.toNat ∧ ch.toNat ≤ 0x46)) :
    ∃ n, hexVal lowerOk ch = some n ∧ hexDigit n = ch := by
  have hmap : (hexVal lowerOk ch).map hexDigit = some ch := by
    revert lowerOk ch
    decide
  exact Option.map_eq_some_iff.mp hmap

/-- Pairs of upper-case digits are the hex text of the bytes they decode to (rule R206 item 3). -/
theorem exists_hexEnc_eq (lowerOk : Bool) {S : List Byte} (heven : S.length % 2 = 0)
    (hS : ∀ ch ∈ S, (0x30 ≤ ch.toNat ∧ ch.toNat ≤ 0x39) ∨ (0x41 ≤ ch.toNat ∧ ch.toNat ≤ 0x46)) :
    ∃ B, hexDec lowerOk S = some B ∧ hexEnc B = S := by
  induction S using pair_induction with
  | nil => exact ⟨[], rfl, rfl⟩
  | one c => simp at heven
  | pair c1 c2 S ih =>
    simp only [List.length_cons] at heven
    obtain ⟨B, hdec, henc⟩ := ih (by omega) fun ch hch => hS ch (by simp [hch])
    obtain ⟨n1, h1, d1⟩ := hexVal_of_upperCase lowerOk c1 (hS c1 (by simp))
    obtain ⟨n2, h2, d2⟩ := hexVal_of_upperCase lowerOk c2 (hS c2 (by simp))
    refine ⟨_, hexDec_cons h1 h2 hdec, ?_⟩
    rw [hexEnc_cons, highNibble_byteOfNibbles, lowNibble_byteOfNibbles, d1, d2, henc]

/-- Settles O40. -/
theorem unhexInvertsHex : Obligations.UnhexInvertsHex := by
  unfold Obligations.UnhexInvertsHex
  intro s
  refine ⟨fun B _ => ⟨hexEnc B, exec_hex B s, exec_unhex_of_some (hexDec_hexEnc _ B)⟩, ?_⟩
  intro S heven hS
  obtain ⟨B, hdec, henc⟩ := exists_hexEnc_eq s.build.hexLowerOk heven hS
  exact ⟨B, exec_unhex_of_some hdec, henc ▸ exec_hex B s⟩

/-! ### PARSE -/

/-- PARSE unpacks the bytes of the text after the tag (rule R205). -/
theorem parseDigest_eq_bind (lowerOk : Bool) (S : List Byte) :
    parseDigest lowerOk S = (hexDec lowerOk (stripTag S)).bind unpackBytes := by
  unfold parseDigest
  cases hexDec lowerOk (stripTag S) <;> rfl

/-- Text that decodes parses to what its bytes unpack to, with or without the tag. -/
theorem parseDigest_of_hexDec {lowerOk : Bool} {S B : List Byte} (h : hexDec lowerOk S = some B)
    (tagged : Bool) :
    parseDigest lowerOk (if tagged then 0x54#8 :: 0x31#8 :: S else S) = unpackBytes B := by
  have hstrip : stripTag (if tagged then 0x54#8 :: 0x31#8 :: S else S) = S := by
    cases tagged with
    | true => exact stripTag_tagged S
    | false => exact stripTag_of_hexDec h
  rw [parseDigest_eq_bind, hstrip, h, Option.bind_some]

/-- Settles O41. -/
theorem parseLoadsDigestText : Obligations.ParseLoadsDigestText := by
  unfold Obligations.ParseLoadsDigestText
  intro s S B c tagged hdec hlen
  exact exec_parse_of_some ((parseDigest_of_hexDec hdec tagged).trans (unpackBytes_eq_rotateLeft hlen))

/-- Settles O42: such a text does not decode, or its bytes have no packed length. -/
theorem parseRejectsOtherText : Obligations.ParseRejectsOtherText := by
  unfold Obligations.ParseRejectsOtherText
  intro s S body h
  refine exec_parse_of_none ?_
  rw [parseDigest_eq_bind, stripTag_eq]
  show (hexDec _ body).bind unpackBytes = none
  refine Option.bind_eq_none_iff.mpr fun B hB => ?_
  rcases h with hlen | ⟨ch, hmem, hch⟩
  · have hdouble := (hexDec_eq_some.mp hB).1
    refine unpackBytes_eq_none.mpr fun hc => hlen ?_
    simp only [List.mem_cons, List.not_mem_nil, or_false] at hc ⊢
    omega
  · rw [hexDec_eq_none (.inr ⟨ch, hmem, hexVal_eq_none.mpr hch⟩)] at hB
    cases hB

/-- Settles O43: the text decodes to the packed form, which unpacks to the digest value. -/
theorem parseOfPackedText : Obligations.ParseOfPackedText := by
  unfold Obligations.ParseOfPackedText
  intro s D tagged hD
  have hparse := parseDigest_of_hexDec (hexDec_hexEnc s.build.hexLowerOk (packBytes D)) tagged
  exact exec_parse_of_some (hparse.trans (unpackBytes_packBytes hD))

end Sys2Proof.Machine
end

section
/-! Proofs about the digest scorer (44_scorer.md): the parts of the distance, SCORE, and the laws and bounds
of the score. -/

namespace Sys2Proof.Machine

/-! ### Ring distances -/

theorem absDiff_eq_natAbs (x y : Nat) : absDiff x y = (Int.ofNat x - Int.ofNat y).natAbs := by
  unfold absDiff
  split_ifs <;> simp only [Int.ofNat_eq_natCast] <;> omega

theorem absDiff_comm (x y : Nat) : absDiff x y = absDiff y x := by
  unfold absDiff
  split_ifs <;> omega

theorem absDiff_self (x : Nat) : absDiff x x = 0 := by simp [absDiff]

theorem modDist_eq_natAbs (x y R : Nat) :
    modDist x y R
      = min (Int.ofNat x - Int.ofNat y).natAbs (R - (Int.ofNat x - Int.ofNat y).natAbs) := by
  rw [modDist, absDiff_eq_natAbs]

theorem modDist_comm (x y R : Nat) : modDist x y R = modDist y x R := by
  rw [modDist, modDist, absDiff_comm]

theorem modDist_self (x R : Nat) : modDist x x R = 0 := by
  rw [modDist, absDiff_self, Nat.zero_min]

/-- Two places on a ring are at most half of it apart. -/
theorem modDist_le_half (x y R : Nat) : modDist x y R ≤ R / 2 := by
  rw [modDist]
  omega

/-- Settles O46. -/
theorem scoreLengthOnRing : Obligations.ScoreLengthOnRing := by
  unfold Obligations.ScoreLengthOnRing
  intro a b e
  rw [scoreLength, modDist_eq_natAbs]

/-- Settles O47. -/
theorem scoreRatioOnRing : Obligations.ScoreRatioOnRing := by
  unfold Obligations.ScoreRatioOnRing
  intro qa qb e
  rw [scoreQ, modDist_eq_natAbs]

/-! ### The bit-pair difference table -/

theorem digit_toNat : ∀ k < 4, ∀ x : Byte, (digit x k).toNat = x.toNat / 4 ^ k % 4 := by decide

theorem digitDiff_le (s t : BitVec 2) : digitDiff s t ≤ 6 := by
  revert s t
  decide

theorem digitDiff_comm (s t : BitVec 2) : digitDiff s t = digitDiff t s := by
  rw [digitDiff, digitDiff, absDiff_comm]

theorem digitDiff_eq_zero (s t : BitVec 2) : digitDiff s t = 0 ↔ s = t := by
  revert s t
  decide

theorem digitDiff_eq_six (s t : BitVec 2) :
    digitDiff s t = 6 ↔ (s.toNat = 0 ∧ t.toNat = 3) ∨ (s.toNat = 3 ∧ t.toNat = 0) := by
  revert s t
  decide

/-- A byte is its four digits. -/
theorem digits_append (x : Byte) : (digit x 3 ++ digit x 2 ++ digit x 1 ++ digit x 0 : Byte) = x := by
  revert x
  decide

theorem bitPairDiff_eq_sum (x y : Byte) :
    bitPairDiff x y = ((List.range 4).map fun k => digitDiff (digit x k) (digit y k)).sum := by
  simp only [bitPairDiff, List.range_succ, List.range_zero, List.nil_append, List.cons_append,
    List.map_cons, List.map_nil, List.sum_cons, List.sum_nil]
  omega

theorem bitPairDiff_le (x y : Byte) : bitPairDiff x y ≤ 24 := by
  have h0 := digitDiff_le (digit x 0) (digit y 0)
  have h1 := digitDiff_le (digit x 1) (digit y 1)
  have h2 := digitDiff_le (digit x 2) (digit y 2)
  have h3 := digitDiff_le (digit x 3) (digit y 3)
  rw [bitPairDiff]
  omega

theorem bitPairDiff_comm (x y : Byte) : bitPairDiff x y = bitPairDiff y x := by
  simp only [bitPairDiff, digitDiff_comm (digit x _)]

theorem bitPairDiff_eq_zero (x y : Byte) : bitPairDiff x y = 0 ↔ x = y := by
  constructor
  · intro h
    simp only [bitPairDiff, Nat.add_eq_zero_iff, digitDiff_eq_zero] at h
    obtain ⟨⟨⟨h0, h1⟩, h2⟩, h3⟩ := h
    rw [← digits_append x, ← digits_append y, h0, h1, h2, h3]
  · rintro rfl
    simp only [bitPairDiff, (digitDiff_eq_zero _ _).mpr rfl]

/-- The entry is greatest just where each of the four summands is. -/
theorem bitPairDiff_eq_max (x y : Byte) :
    bitPairDiff x y = 24 ↔ ∀ k, k < 4 → digitDiff (digit x k) (digit y k) = 6 := by
  have h0 := digitDiff_le (digit x 0) (digit y 0)
  have h1 := digitDiff_le (digit x 1) (digit y 1)
  have h2 := digitDiff_le (digit x 2) (digit y 2)
  have h3 := digitDiff_le (digit x 3) (digit y 3)
  rw [bitPairDiff]
  constructor
  · intro h k hk
    interval_cases k <;> omega
  · intro h
    rw [h 0 (by decide), h 1 (by decide), h 2 (by decide), h 3 (by decide)]

/-- Settles O48. -/
theorem bitPairDiffTable : Obligations.BitPairDiffTable := by
  unfold Obligations.BitPairDiffTable
  intro x y
  refine ⟨?_, bitPairDiff_le x y, bitPairDiff_comm x y, bitPairDiff_eq_zero x y, ?_⟩
  · rw [bitPairDiff_eq_sum]
    refine congrArg List.sum (List.map_congr_left fun k hk => ?_)
    have hk : k < 4 := List.mem_range.mp hk
    rw [digitDiff, absDiff_eq_natAbs, digit_toNat k hk, digit_toNat k hk]
  · rw [bitPairDiff_eq_max]
    refine forall_congr' fun k => imp_congr_right fun hk => ?_
    rw [digitDiff_eq_six, digit_toNat k hk, digit_toNat k hk]

/-! ### SCORE -/

/-- The lengths of the parts of an unpacked digest go with its packed length (rule R111). -/
theorem unpackBytes_lengths {B : List Byte} {D : DigestValue} (h : unpackBytes B = some D) :
    (B.length, D.checksum.length, D.body.length)
      ∈ [(15, 1, 12), (35, 1, 32), (37, 3, 32), (67, 1, 64), (69, 3, 64)] := by
  have hpacked := packBytes_length D
  rw [packBytes_of_unpackBytes h] at hpacked
  have hshape := unpackBytes_shaped h
  simp only [DigestValue.Shaped, List.mem_cons, Prod.mk.injEq, List.not_mem_nil, or_false] at hshape
  rcases hshape with ⟨hc, hb⟩ | ⟨hc, hb⟩ | ⟨hc, hb⟩ | ⟨hc, hb⟩ | ⟨hc, hb⟩ <;> simp [hpacked, hc, hb]

/-- SCORE's check of the shapes is one of the packed lengths (rules R111, R237). -/
theorem scorePacked_of_unpacked {A B : List Byte} {a b : DigestValue} (l : Bool)
    (hA : unpackBytes A = some a) (hB : unpackBytes B = some b) :
    scorePacked A B l = if A.length = B.length then .ok (score a b l) else .error .mismatched := by
  have hlenA := unpackBytes_lengths hA
  have hlenB := unpackBytes_lengths hB
  simp only [List.mem_cons, Prod.mk.injEq, List.not_mem_nil, or_false] at hlenA hlenB
  simp only [scorePacked, hA, hB]
  by_cases h : A.length = B.length
  · rw [if_pos h, if_neg (by omega)]
  · rw [if_neg h, if_pos (by omega)]

/-- An operand of no packed length is BadFormat, whatever the other is. -/
theorem scorePacked_of_none {A B : List Byte} (l : Bool)
    (h : unpackBytes A = none ∨ unpackBytes B = none) : scorePacked A B l = .error .badFormat := by
  unfold scorePacked
  rcases h with h | h
  · rw [h]
  · rw [h]
    cases unpackBytes A <;> rfl

/-- The bytes of a number depend on it only up to their width. -/
theorem beBytes_mod (k n : Nat) : beBytes k (n % 256 ^ k) = beBytes k n := by
  have h := beBytes_beNat (beBytes k n)
  rwa [beBytes_length, beNat_beBytes] at h

theorem i32Result_ofNat (n : Nat) : i32Result (BitVec.ofNat 32 n) = beBytes 4 n := by
  rw [i32Result, BitVec.toNat_ofNat]
  exact beBytes_mod 4 n

/-- SCORE of two digests of one length answers their score. -/
theorem exec_score_of_unpacked {A B : List Byte} {a b : DigestValue} (s : State) (l : Bool)
    (hA : unpackBytes A = some a) (hB : unpackBytes B = some b) (hlen : A.length = B.length) :
    exec (.score A B l) s = .next (s.respond (beBytes 4 (score a b l))) := by
  have hok := scorePacked_of_unpacked l hA hB
  rw [if_pos hlen] at hok
  rw [exec_score_of_ok s hok, i32Result_ofNat]

/-- Settles O44: the parts of the score, their distances written out. -/
theorem scoreReturnsSumOfParts : Obligations.ScoreReturnsSumOfParts := by
  unfold Obligations.ScoreReturnsSumOfParts
  intro s A B a b l hA hB hlen ring checksumPart lengthPart ratioPart
  have hlength : scoreLength a b = lengthPart := scoreLengthOnRing a b
  have hratio : ∀ qa qb, scoreQ qa qb = ratioPart qa qb := scoreRatioOnRing
  rw [exec_score_of_unpacked s l hA hB hlen, score, hlength, hratio, hratio]
  rfl

/-- Settles O45. -/
theorem scoreRejectsBadShapes : Obligations.ScoreRejectsBadShapes := by
  unfold Obligations.ScoreRejectsBadShapes
  intro s A B l
  constructor
  · intro h
    have hnone := h.imp unpackBytes_eq_none.mpr unpackBytes_eq_none.mpr
    exact exec_score_of_error s (scorePacked_of_none l hnone)
  · intro hA hB hne
    obtain ⟨a, ha⟩ := exists_unpackBytes hA
    obtain ⟨b, hb⟩ := exists_unpackBytes hB
    exact exec_score_of_error s ((scorePacked_of_unpacked l ha hb).trans (if_neg hne))

/-! ### Laws of the score -/

theorem scoreBody_comm (a b : DigestValue) : scoreBody a b = scoreBody b a := by
  rw [scoreBody, scoreBody, List.zipWith_comm]
  simp only [bitPairDiff_comm]

theorem scoreQ_comm (qa qb : Nibble) : scoreQ qa qb = scoreQ qb qa := by
  rw [scoreQ, scoreQ, modDist_comm]

theorem score_comm (a b : DigestValue) (l : Bool) : score a b l = score b a l := by
  simp only [score, scoreChecksum, scoreLength, scoreBody_comm a b, scoreQ_comm a.q1, scoreQ_comm a.q2,
    modDist_comm a.lvalue.toNat, eq_comm (a := a.checksum)]

theorem scoreBody_self (a : DigestValue) : scoreBody a a = 0 := by
  refine List.sum_eq_zero fun n hn => ?_
  rw [List.zipWith_self] at hn
  obtain ⟨x, -, rfl⟩ := List.mem_map.mp hn
  exact (bitPairDiff_eq_zero x x).mpr rfl

theorem score_self (a : DigestValue) (l : Bool) : score a a l = 0 := by
  simp [score, scoreChecksum, scoreLength, scoreQ, modDist_self, scoreBody_self]

/-- SCORE's checks and its score do not care for the order of the operands. -/
theorem scorePacked_comm (A B : List Byte) (l : Bool) : scorePacked A B l = scorePacked B A l := by
  cases hA : unpackBytes A with
  | none => rw [scorePacked_of_none l (.inl hA), scorePacked_of_none l (.inr hA)]
  | some a =>
    cases hB : unpackBytes B with
    | none => rw [scorePacked_of_none l (.inr hB), scorePacked_of_none l (.inl hB)]
    | some b =>
      simp only [scorePacked_of_unpacked l hA hB, scorePacked_of_unpacked l hB hA, score_comm a b,
        eq_comm (a := A.length)]

/-- Settles O49. The two digests that differ and score 0 differ in their length codes alone. -/
theorem scoreIsSymmetricAndZeroOnSelf : Obligations.ScoreIsSymmetricAndZeroOnSelf := by
  unfold Obligations.ScoreIsSymmetricAndZeroOnSelf
  intro s A B l
  refine ⟨?_, fun hA => ?_, List.replicate 15 0#8, 0#8 :: 1#8 :: List.replicate 13 0#8, by decide, ?_⟩
  · simp only [exec, execScore, scorePacked_comm A B]
  · obtain ⟨a, ha⟩ := exists_unpackBytes hA
    rw [exec_score_of_unpacked s l ha ha rfl, score_self]
    rfl
  · exact exec_score_of_ok s (n := 0) (by decide)

/-! ### Bounds -/

theorem scoreChecksum_le (a b : DigestValue) : scoreChecksum a b ≤ 1 := by
  unfold scoreChecksum
  split_ifs <;> simp

theorem scoreLength_le (a b : DigestValue) : scoreLength a b ≤ 1536 := by
  have h := modDist_le_half a.lvalue.toNat b.lvalue.toNat 256
  simp only [scoreLength]
  split_ifs <;> omega

theorem scoreQ_le (qa qb : Nibble) : scoreQ qa qb ≤ 84 := by
  have h := modDist_le_half qa.toNat qb.toNat 16
  simp only [scoreQ]
  split_ifs <;> omega

theorem sum_bitPairDiff_le (X Y : List Byte) :
    (List.zipWith bitPairDiff X Y).sum ≤ 24 * X.length := by
  induction X generalizing Y with
  | nil => simp
  | cons x X ih =>
    cases Y with
    | nil => simp
    | cons y Y =>
      have hx := bitPairDiff_le x y
      have hX := ih Y
      rw [List.zipWith_cons_cons, List.sum_cons, List.length_cons]
      omega

/-- The tight bound (rule R240). -/
theorem score_le (a b : DigestValue) (l : Bool) :
    score a b l ≤ 1 + (if l then 1536 else 0) + 168 + 24 * a.body.length := by
  have hchecksum := scoreChecksum_le a b
  have hlength := scoreLength_le a b
  have hq1 := scoreQ_le a.q1 b.q1
  have hq2 := scoreQ_le a.q2 b.q2
  have hbody : scoreBody a b ≤ 24 * a.body.length := sum_bitPairDiff_le a.body b.body
  rw [score]
  split_ifs <;> omega

/-- With `highDigest`, two digest values as far apart as their shape allows: the checksums differ, every
ring distance is half of its ring, and every bit pair is 0 against 3. -/
def lowDigest (m : Nat) : DigestValue :=
  { checksum := [0#8], lvalue := 0#8, q1 := 0#4, q2 := 0#4, body := List.replicate m 0#8 }

/-- The other end of the distances of `lowDigest`. -/
def highDigest (m : Nat) : DigestValue :=
  { checksum := [1#8], lvalue := 128#8, q1 := 8#4, q2 := 8#4, body := List.replicate m 255#8 }

theorem score_low_high (m : Nat) (l : Bool) :
    score (lowDigest m) (highDigest m) l = 1 + (if l then 1536 else 0) + 168 + 24 * m := by
  have hmax : bitPairDiff 0#8 255#8 = 24 := by decide
  have hbody : scoreBody (lowDigest m) (highDigest m) = 24 * m := by
    rw [scoreBody, lowDigest, highDigest, List.zipWith_replicate', List.sum_replicate, hmax, smul_eq_mul,
      Nat.mul_comm]
  have hlength : scoreLength (lowDigest m) (highDigest m) = 1536 := rfl
  have hq1 : scoreQ (lowDigest m).q1 (highDigest m).q1 = 84 := rfl
  have hq2 : scoreQ (lowDigest m).q2 (highDigest m).q2 = 84 := rfl
  have hchecksum : scoreChecksum (lowDigest m) (highDigest m) = 1 := rfl
  rw [score, hchecksum, hbody, hlength, hq1, hq2]

/-- Settles O50. -/
theorem scoreBound : Obligations.ScoreBound := by
  unfold Obligations.ScoreBound
  refine ⟨fun a b l _ => ⟨?_, score_le a b l⟩, fun m => ⟨lowDigest m, highDigest m,
    List.length_replicate, List.length_replicate, score_low_high m true, score_low_high m false⟩⟩
  have h := score_le a b l
  split_ifs at h <;> omega

end Sys2Proof.Machine
end
